-- ==== Sys2Proof/Word.lean ====
section
/-!
DEFINITION. The word types of the machine (00_scope R3, R6): every value is unsigned.
-/

namespace Sys2Proof

/-- A general register, a timer, a memory byte: 8 bits (R10, R17, R20). -/
abbrev Byte := BitVec 8

/-- An instruction word, `I`, `PC`, a stack entry: 16 bits (R13, R14, R18, R60). -/
abbrev Word := BitVec 16

/-- A 4-bit field: a register index `x` or `y`, a sprite height `n`, a key code (R29, R61). -/
abbrev Nibble := BitVec 4

/-- The 12-bit address immediate `nnn` (R61, R63). -/
abbrev Addr12 := BitVec 12

end Sys2Proof
end

