-- ==== Sys2Proof/Machine/Interface.lean ====
section
/-!
DEFINITION. The screen (10_state R24), the font table (00_scope R5), and the tagged values that pass between
the block and its host (10_state R29, R30; 60_exceptions R200, R220): events, outcomes, fault records, the
host's calls and their replies.
-/

namespace Sys2Proof.Machine

/-- `FB`: 32 rows of 64 one-bit pixels, 1 for lit; bit `c` of a row is the pixel in column `c` (R24). -/
abbrev FrameBuffer := Vector (BitVec 64) 32

/-- `FONT`: the 80 bytes of the font table, a parameter of the machine (00_scope R5, D15). -/
abbrev Font := Vector Byte 80

/-- The input of one `step` (R29). A key code is a 4-bit value by type (D26). -/
inductive Event where
  /-- `None`: normal cycle, no external input delivered. -/
  | none
  /-- `KeyPress(k)`: the key `k` is currently held. -/
  | keyPress (k : Nibble)
  /-- `KeyResolved(k)`: the host answers a blocking wait with the key `k`. -/
  | keyResolved (k : Nibble)
  deriving DecidableEq, Repr, Inhabited

/-- The output of one `step` that does not fault (R30). -/
inductive StepOutcome where
  /-- `None`: no externally observable effect. -/
  | none
  /-- `Redraw(framebuffer)`: the whole of `FB` as it is after the instruction (D25). -/
  | redraw (fb : FrameBuffer)
  /-- `AwaitKey`: the instruction at `PC` waits for a key and `PC` has not moved. -/
  | awaitKey
  deriving DecidableEq, Repr

/-- A fault record: a kind and the values it carries (R200). -/
inductive FaultRecord where
  /-- Code 1: the word `w` at `pc` matches no row of the opcode map (R201). -/
  | decodeFailure (w : Word) (pc : Word)
  /-- Code 2: the `CALL` at `pc` found 16 addresses saved (R202). -/
  | stackOverflow (pc : Word)
  /-- Code 3: the `RET` at `pc` found none saved (R202). -/
  | stackUnderflow (pc : Word)
  deriving DecidableEq, Repr

/-- The code of a fault record, the spec's own numbering (R200, D17). -/
def FaultRecord.code : FaultRecord → Nat
  | .decodeFailure _ _ => 1
  | .stackOverflow _ => 2
  | .stackUnderflow _ => 3

/-- The three transactions of the block, all started by the host (R2, R220). -/
inductive HostCall where
  /-- `step(event)`: execute one instruction (30_encoding R70). -/
  | step (e : Event)
  /-- `tick()`: decrement the timers (60_exceptions R215). -/
  | tick
  /-- `reset(IMAGE)`: make the whole state anew (70_reset_and_hazards R240). -/
  | reset (image : List Byte)
  deriving DecidableEq, Repr, Inhabited

/-- What a transaction returns to the host (R220). -/
inductive Reply where
  /-- `reset` and `tick` return nothing. -/
  | nothing
  /-- A `step` that did not fault returns its outcome (R30). -/
  | outcome (o : StepOutcome)
  /-- A `step` that faulted returns the fault in place of an outcome (R204). -/
  | fault (f : FaultRecord)
  deriving DecidableEq, Repr

end Sys2Proof.Machine
end

