-- ==== Sys2Proof/Config.lean ====
section
/-!
DEFINITION. What stays open for every run: the host's schedule and the random source. Both are
opaque functions without a body, so that a theorem holds whatever they give.
-/

namespace Sys2Proof

/-- The longest program image: the room from 0x200 to the top of memory (R5, D16). -/
def Config.maxImage : Nat := 3584

/-- The `n`-th byte the random source gives to `RND`: any byte, with no law and no relation between
two draws (42_index_jump_random R132, D21). Free value, log entry 3. -/
opaque Config.rand : Nat → Byte

/-- The `n`-th call the host makes beyond the calls already listed in the state: any call with any
event (60_exceptions R222, D28). Free value, log entry 1. -/
opaque Config.hostCall : Nat → Machine.HostCall

end Sys2Proof
end

