-- ==== Sys2Proof/Syntax.lean ====
section
/-!
DEFINITION. The 34 instructions of the opcode map (30_encoding R66), one constructor per row, in the
order of the table. `x` and `y` are register indices, `kk` a byte, `n` a nibble, `nnn` an address.
-/

namespace Sys2Proof

/-- One instruction. Every value of every operand is legal (R65); the operand widths are those of the
fields (R61). -/
inductive Instr where
  /-- `00E0` `CLS` (R100) -/
  | cls
  /-- `00EE` `RET` (R101) -/
  | ret
  /-- `1nnn` `JP nnn` (R102) -/
  | jp (nnn : Addr12)
  /-- `2nnn` `CALL nnn` (R103) -/
  | call (nnn : Addr12)
  /-- `3xkk` `SE Vx,kk` (R104) -/
  | seImm (x : Nibble) (kk : Byte)
  /-- `4xkk` `SNE Vx,kk` (R105) -/
  | sneImm (x : Nibble) (kk : Byte)
  /-- `5xy0` `SE Vx,Vy` (R106) -/
  | seReg (x y : Nibble)
  /-- `9xy0` `SNE Vx,Vy` (R107) -/
  | sneReg (x y : Nibble)
  /-- `6xkk` `LD Vx,kk` (R110) -/
  | ldImm (x : Nibble) (kk : Byte)
  /-- `7xkk` `ADD Vx,kk` (R111) -/
  | addImm (x : Nibble) (kk : Byte)
  /-- `8xy0` `LD Vx,Vy` (R113) -/
  | ldReg (x y : Nibble)
  /-- `8xy1` `OR Vx,Vy` (R114) -/
  | orReg (x y : Nibble)
  /-- `8xy2` `AND Vx,Vy` (R115) -/
  | andReg (x y : Nibble)
  /-- `8xy3` `XOR Vx,Vy` (R116) -/
  | xorReg (x y : Nibble)
  /-- `8xy4` `ADD Vx,Vy` (R117) -/
  | addReg (x y : Nibble)
  /-- `8xy5` `SUB Vx,Vy` (R118) -/
  | sub (x y : Nibble)
  /-- `8xy6` `SHR Vx` (R119); the field `y` is present in the word and ignored (R68) -/
  | shr (x y : Nibble)
  /-- `8xy7` `SUBN Vx,Vy` (R120) -/
  | subn (x y : Nibble)
  /-- `8xyE` `SHL Vx` (R121); the field `y` is present in the word and ignored (R68) -/
  | shl (x y : Nibble)
  /-- `Annn` `LD I,nnn` (R130) -/
  | ldI (nnn : Addr12)
  /-- `Bnnn` `JP V0,nnn` (R131) -/
  | jpV0 (nnn : Addr12)
  /-- `Cxkk` `RND Vx,kk` (R132) -/
  | rnd (x : Nibble) (kk : Byte)
  /-- `Dxyn` `DRW Vx,Vy,n` (R140) -/
  | drw (x y n : Nibble)
  /-- `Ex9E` `SKP Vx` (R150) -/
  | skp (x : Nibble)
  /-- `ExA1` `SKNP Vx` (R151) -/
  | sknp (x : Nibble)
  /-- `Fx07` `LD Vx,DT` (R152) -/
  | ldVxDt (x : Nibble)
  /-- `Fx15` `LD DT,Vx` (R153) -/
  | ldDtVx (x : Nibble)
  /-- `Fx18` `LD ST,Vx` (R154) -/
  | ldStVx (x : Nibble)
  /-- `Fx1E` `ADD I,Vx` (R160) -/
  | addI (x : Nibble)
  /-- `Fx29` `LD F,Vx` (R161) -/
  | ldF (x : Nibble)
  /-- `Fx33` `LD B,Vx` (R162) -/
  | ldB (x : Nibble)
  /-- `Fx55` `LD [I],Vx` (R163) -/
  | storeRegs (x : Nibble)
  /-- `Fx65` `LD Vx,[I]` (R164) -/
  | loadRegs (x : Nibble)
  /-- `Fx0A` `LD Vx,K` (R170) -/
  | ldK (x : Nibble)
  deriving DecidableEq, Repr

end Sys2Proof
end

