-- ==== Sys2Proof/WellFormed.lean ====
section
/-!
DEFINITION. Well-formedness of what the machine is given: instructions and host calls.
-/

namespace Sys2Proof

/-- Every instruction is well formed: each operand has exactly the width of its field (R61), and
"every value of them is legal" (30_encoding R65). There is nothing left to check. -/
def Instr.wf (_ : Instr) : Bool := true

/-- A host call is well formed when a reset's image fits the room from 0x200: "`L <= 3584` as a
precondition of reset" (70_reset_and_hazards R241, D16). Events need no check (D26). -/
def Machine.HostCall.wf : Machine.HostCall → Bool
  | .step _ => true
  | .tick => true
  | .reset image => decide (image.length ≤ Config.maxImage)

end Sys2Proof
end

