-- ==== Sys2Proof/Decode.lean ====
section
/-!
DEFINITION. Decoding (30_encoding R61, R62, R65, R67) and, after it, the encoder (R66).
-/

namespace Sys2Proof

/-- Why bytes are no instruction: the six classes of illegal words of R67, in its order, or too few
bytes for a 16-bit word. -/
inductive Reject where
  /-- (a) `0nnn` with `nnn` other than 0x0E0 and 0x0EE -/
  | family0
  /-- (b) `5xyN` with `N` not 0 -/
  | family5
  /-- (c) `9xyN` with `N` not 0 -/
  | family9
  /-- (d) `8xyN` with `N` in 8, 9, 0xA, 0xB, 0xC, 0xD, 0xF -/
  | family8
  /-- (e) `Exkk` with `kk` other than 0x9E and 0xA1 -/
  | familyE
  /-- (f) `Fxkk` with `kk` none of the nine values of R65 -/
  | familyF
  /-- fewer than two bytes -/
  | truncated
  deriving DecidableEq, Repr

/-- First nibble, `w[15:12]` (R61). -/
def opOf (w : Word) : Nibble := w.extractLsb' 12 4

/-- First register index, `w[11:8]` (R61). -/
def xOf (w : Word) : Nibble := w.extractLsb' 8 4

/-- Second register index, `w[7:4]` (R61). -/
def yOf (w : Word) : Nibble := w.extractLsb' 4 4

/-- Last nibble, `w[3:0]` (R61). -/
def nOf (w : Word) : Nibble := w.extractLsb' 0 4

/-- Last byte, `w[7:0]` (R61). -/
def kkOf (w : Word) : Byte := w.extractLsb' 0 8

/-- 12-bit address, `w[11:0]` (R61). -/
def nnnOf (w : Word) : Addr12 := w.extractLsb' 0 12

/-- Family 0: the whole word is fixed (R65). -/
def decode0 (w : Word) : Except Reject Instr :=
  if w = 0x00E0#16 then .ok .cls
  else if w = 0x00EE#16 then .ok .ret
  else .error .family0

/-- Family 8: told apart by the last nibble (R65). -/
def decode8 (x y n : Nibble) : Except Reject Instr :=
  if n = 0x0#4 then .ok (.ldReg x y)
  else if n = 0x1#4 then .ok (.orReg x y)
  else if n = 0x2#4 then .ok (.andReg x y)
  else if n = 0x3#4 then .ok (.xorReg x y)
  else if n = 0x4#4 then .ok (.addReg x y)
  else if n = 0x5#4 then .ok (.sub x y)
  else if n = 0x6#4 then .ok (.shr x y)
  else if n = 0x7#4 then .ok (.subn x y)
  else if n = 0xE#4 then .ok (.shl x y)
  else .error .family8

/-- Family E: told apart by the last byte (R65). -/
def decodeE (x : Nibble) (kk : Byte) : Except Reject Instr :=
  if kk = 0x9E#8 then .ok (.skp x)
  else if kk = 0xA1#8 then .ok (.sknp x)
  else .error .familyE

/-- Family F: told apart by the last byte (R65). -/
def decodeF (x : Nibble) (kk : Byte) : Except Reject Instr :=
  if kk = 0x07#8 then .ok (.ldVxDt x)
  else if kk = 0x0A#8 then .ok (.ldK x)
  else if kk = 0x15#8 then .ok (.ldDtVx x)
  else if kk = 0x18#8 then .ok (.ldStVx x)
  else if kk = 0x1E#8 then .ok (.addI x)
  else if kk = 0x29#8 then .ok (.ldF x)
  else if kk = 0x33#8 then .ok (.ldB x)
  else if kk = 0x55#8 then .ok (.storeRegs x)
  else if kk = 0x65#8 then .ok (.loadRegs x)
  else .error .familyF

/-- Decoding, total on the 65536 words; it reads the word only (R65). The last branch is `op` = 0xF. -/
def decodeWord (w : Word) : Except Reject Instr :=
  if opOf w = 0x0#4 then decode0 w
  else if opOf w = 0x1#4 then .ok (.jp (nnnOf w))
  else if opOf w = 0x2#4 then .ok (.call (nnnOf w))
  else if opOf w = 0x3#4 then .ok (.seImm (xOf w) (kkOf w))
  else if opOf w = 0x4#4 then .ok (.sneImm (xOf w) (kkOf w))
  else if opOf w = 0x5#4 then
    if nOf w = 0x0#4 then .ok (.seReg (xOf w) (yOf w)) else .error .family5
  else if opOf w = 0x6#4 then .ok (.ldImm (xOf w) (kkOf w))
  else if opOf w = 0x7#4 then .ok (.addImm (xOf w) (kkOf w))
  else if opOf w = 0x8#4 then decode8 (xOf w) (yOf w) (nOf w)
  else if opOf w = 0x9#4 then
    if nOf w = 0x0#4 then .ok (.sneReg (xOf w) (yOf w)) else .error .family9
  else if opOf w = 0xA#4 then .ok (.ldI (nnnOf w))
  else if opOf w = 0xB#4 then .ok (.jpV0 (nnnOf w))
  else if opOf w = 0xC#4 then .ok (.rnd (xOf w) (kkOf w))
  else if opOf w = 0xD#4 then .ok (.drw (xOf w) (yOf w) (nOf w))
  else if opOf w = 0xE#4 then decodeE (xOf w) (kkOf w)
  else decodeF (xOf w) (kkOf w)

/-- The big-endian join of the byte at the lower address and the byte at the higher one (20_memory
R43). -/
def joinBytes (hi lo : Byte) : Word := hi ++ lo

/-- The byte of a word that stands at the lower address, bits 15:8 (20_memory R43). -/
def highByte (w : Word) : Byte := w.extractLsb' 8 8

/-- The byte of a word that stands at the higher address, bits 7:0 (20_memory R43). -/
def lowByte (w : Word) : Byte := w.extractLsb' 0 8

/-- Decoding of a byte sequence: one 16-bit word (R60), and the bytes after it. -/
def decode : List Byte → Except Reject (Instr × List Byte)
  | hi :: lo :: rest => (decodeWord (joinBytes hi lo)).map fun i => (i, rest)
  | _ => .error .truncated

/-- The word of an instruction, row by row of the opcode map (R62, R66). -/
def encode : Instr → Word
  | .cls => 0x00E0#16
  | .ret => 0x00EE#16
  | .jp nnn => 0x1#4 ++ nnn
  | .call nnn => 0x2#4 ++ nnn
  | .seImm x kk => 0x3#4 ++ x ++ kk
  | .sneImm x kk => 0x4#4 ++ x ++ kk
  | .seReg x y => 0x5#4 ++ x ++ y ++ 0x0#4
  | .sneReg x y => 0x9#4 ++ x ++ y ++ 0x0#4
  | .ldImm x kk => 0x6#4 ++ x ++ kk
  | .addImm x kk => 0x7#4 ++ x ++ kk
  | .ldReg x y => 0x8#4 ++ x ++ y ++ 0x0#4
  | .orReg x y => 0x8#4 ++ x ++ y ++ 0x1#4
  | .andReg x y => 0x8#4 ++ x ++ y ++ 0x2#4
  | .xorReg x y => 0x8#4 ++ x ++ y ++ 0x3#4
  | .addReg x y => 0x8#4 ++ x ++ y ++ 0x4#4
  | .sub x y => 0x8#4 ++ x ++ y ++ 0x5#4
  | .shr x y => 0x8#4 ++ x ++ y ++ 0x6#4
  | .subn x y => 0x8#4 ++ x ++ y ++ 0x7#4
  | .shl x y => 0x8#4 ++ x ++ y ++ 0xE#4
  | .ldI nnn => 0xA#4 ++ nnn
  | .jpV0 nnn => 0xB#4 ++ nnn
  | .rnd x kk => 0xC#4 ++ x ++ kk
  | .drw x y n => 0xD#4 ++ x ++ y ++ n
  | .skp x => 0xE#4 ++ x ++ 0x9E#8
  | .sknp x => 0xE#4 ++ x ++ 0xA1#8
  | .ldVxDt x => 0xF#4 ++ x ++ 0x07#8
  | .ldDtVx x => 0xF#4 ++ x ++ 0x15#8
  | .ldStVx x => 0xF#4 ++ x ++ 0x18#8
  | .addI x => 0xF#4 ++ x ++ 0x1E#8
  | .ldF x => 0xF#4 ++ x ++ 0x29#8
  | .ldB x => 0xF#4 ++ x ++ 0x33#8
  | .storeRegs x => 0xF#4 ++ x ++ 0x55#8
  | .loadRegs x => 0xF#4 ++ x ++ 0x65#8
  | .ldK x => 0xF#4 ++ x ++ 0x0A#8

/-- The two bytes of an instruction as memory holds them, the first at the lower address (R43). -/
def encodeBytes (i : Instr) : List Byte := [highByte (encode i), lowByte (encode i)]

/-- The instruction word whose bits are `w`, numbered as the opcode table numbers them; the bits at
`nbits` and above are 0. -/
def tableWord (nbits w : Nat) : Word := BitVec.ofNat 16 (w % 2 ^ nbits)

/-- The instruction the decoder reads from a word of the opcode table, laid out as memory holds it. -/
def decodeTableWord (nbits w : Nat) : Option Instr :=
  match decode [highByte (tableWord nbits w), lowByte (tableWord nbits w)] with
  | .ok (i, _) => some i
  | .error _ => none

end Sys2Proof
end

