-- ==== Sys2Proof/Machine/State.lean ====
section
/-!
DEFINITION. The Machine State (10_state R10-R35), the model's interface fields beside it, the reasons a
step can stop, and the state right after reset.
-/

namespace Sys2Proof.Machine

/-- `MEM`, the listed bytes: (physical address, byte) pairs in the canonical form `Memory.wf` of
Machine/Memory.lean. An address that is not listed reads as its reset value, `Memory.initial` of the state's `FONT`. -/
abbrev Memory := List Host.Cell

/-- Everything the spec gives the machine, its parameter `FONT`, and the five fields through which a deterministic step meets
its host (`event`, `reply`, `calls`, `callsDrawn`, `draws`). -/
structure State where
  /-- `V[0]` to `V[15]`; `V[15]` is `VF` (R10, R12) -/
  v : Vector Byte 16
  /-- `I`, a raw address (R13) -/
  i : Word
  /-- `PC`, the raw address of the next instruction (R14) -/
  pc : Word
  /-- `SP`, the count of saved return addresses, 0 to 16 (R18) -/
  sp : Fin 17
  /-- `STACK[0]` to `STACK[15]` (R18) -/
  stack : Vector Word 16
  /-- `DT`, the delay timer (R20) -/
  dt : Byte
  /-- `ST`, the sound timer (R20) -/
  st : Byte
  /-- `MEM` (R17) -/
  mem : Memory
  /-- `FB`, the framebuffer (R24) -/
  fb : FrameBuffer
  /-- `FAULT`, `none` or the record of the fault that ended the run (R26) -/
  fault : Option FaultRecord
  /-- `FONT`, the parameter of the machine that no transition changes (00_scope R5, 10_state R27;
  log entry 17) -/
  font : Font
  /-- The event of the `step` under way (R29); every `step` call writes it before anything reads it. -/
  event : Event
  /-- What the last transaction returned (R30, R204, R220); no instruction reads it. -/
  reply : Reply
  /-- The host's calls still to come, the next one first (R222). -/
  calls : List HostCall
  /-- How many calls beyond the list were drawn from `Config.hostCall`. -/
  callsDrawn : Nat
  /-- How many bytes `RND` has drawn from `Config.rand` (R132). -/
  draws : Nat
  deriving DecidableEq, Repr

/-- Why the machine is stuck. -/
inductive Fault where
  /-- Raised by `step` when the host calls `step` or `tick` while `FAULT` is not `none`: "no `step` and
  no `tick` transition exists" (60_exceptions R205, U15). Safe: the model stops where the spec has no
  transition. -/
  | halted (f : FaultRecord)
  deriving DecidableEq, Repr

/-- Why a step has no meaning. -/
inductive Refusal where
  /-- Raised by an arm of `exec` for an instruction without a meaning. Safe. No arm raises it now. -/
  | notModelled (mnemonic : String)
  /-- Raised by the reset transition for an image of more than 3584 bytes: "gives a longer image no
  meaning" (70_reset_and_hazards R241, U13). Safe: the model stops where the spec has no transition. -/
  | imageTooLong (length : Nat)
  deriving DecidableEq, Repr

/-- The blank framebuffer, every pixel unlit. -/
def blankScreen : FrameBuffer := Vector.replicate 32 0#64

/-- The state right after `reset` with the empty image on the machine whose font table is `font`
(10_state R32, 70_reset_and_hazards R240). -/
def State.resetWith (font : Font) : State where
  v := Vector.replicate 16 0x00#8
  i := 0x0000#16
  pc := 0x0200#16
  sp := 0
  stack := Vector.replicate 16 0x0000#16
  dt := 0x00#8
  st := 0x00#8
  mem := []
  fb := blankScreen
  fault := none
  font := font
  event := .none
  reply := .nothing
  calls := []
  callsDrawn := 0
  draws := 0

/-- The state right after `reset` with the empty image, the font table at the spec's default (R33). -/
def State.reset : State := State.resetWith defaultFont

end Sys2Proof.Machine
end

