-- ==== Sys2Proof/Machine/Memory.lean ====
section
/-!
DEFINITION. `MEM` as a list of cells: what an unlisted address reads as, one read, one write, the
canonical form, and the address translator (10_state R17, R32; 20_memory R40, R48).
-/

namespace Sys2Proof.Machine

/-- What an unlisted physical address reads as: its reset contents, `FONT[a]` for `a` in 0 to 79 and
0x00 elsewhere (10_state R32; log entries 5 and 17). -/
def Memory.initial (font : Font) (a : Nat) : Byte := if h : a < 80 then font[a] else 0x00#8

/-- `MEM[a]` for a physical address `a`. -/
def Memory.lookup (font : Font) : Memory → Nat → Byte
  | [], a => Memory.initial font a
  | (b, u) :: m, a => if a = b then u else Memory.lookup font m a

/-- The cells of `m` less every cell for `a`. -/
def Memory.erase : Memory → Nat → Memory
  | [], _ => []
  | (b, u) :: m, a => if a = b then Memory.erase m a else (b, u) :: Memory.erase m a

/-- The cells of `m` with a cell for `a` in its place by address. -/
def Memory.insert : Memory → Nat → Byte → Memory
  | [], a, v => [(a, v)]
  | (b, u) :: m, a, v => if a < b then (a, v) :: (b, u) :: m else (b, u) :: Memory.insert m a v

/-- `MEM[a] <- v` for a physical address `a`; keeps the canonical form: a byte equal to what the unlisted
address reads as is not listed. -/
def Memory.store (font : Font) (m : Memory) (a : Nat) (v : Byte) : Memory :=
  if v = Memory.initial font a then m.erase a else (m.erase a).insert a v

/-- The canonical form from address `lo` up: addresses strictly rising and below 4096, and no cell equal
to what its address reads as when it is not listed. -/
def Memory.wfFrom (font : Font) : Nat → Memory → Bool
  | _, [] => true
  | lo, (b, u) :: m =>
    decide (lo ≤ b) && decide (b < 4096) && decide (u ≠ Memory.initial font b) &&
      Memory.wfFrom font (b + 1) m

/-- The canonical form of `MEM`: equal memories are equal lists, and there are 4096 bytes (R34). -/
def Memory.wf (font : Font) (m : Memory) : Bool := Memory.wfFrom font 0 m

/-- Store the bytes of a list at consecutive physical addresses from `a`. -/
def Memory.storeList (font : Font) : Memory → Nat → List Byte → Memory
  | m, _, [] => m
  | m, a, v :: vs => Memory.storeList font (Memory.store font m a v) (a + 1) vs

/-- The address translator: the physical address of a raw address, its low 12 bits (20_memory R40). -/
def physical (a : Word) : Nat := a.toNat % 4096

end Sys2Proof.Machine
end

