-- ==== Sys2Proof/Machine/Ops.lean ====
section
/-!
DEFINITION. The named operations every meaning is built from: memory and register access, the fetch, the
ways an instruction leaves `PC`, the call stack, taking a fault, and the host's transactions.
-/

namespace Sys2Proof.Machine

/-! ## Memory and registers -/

/-- `MemRead(a, 1)`: one byte through the translator (R7, 20_memory R40). -/
def readByte (s : State) (a : Word) : Byte := s.mem.lookup s.font (physical a)

/-- `MemWrite(a, 1, v)`: one byte through the translator (R7, 20_memory R40). -/
def writeByte (s : State) (a : Word) (v : Byte) : State :=
  { s with mem := s.mem.store s.font (physical a) v }

/-- `V[x]` (R7, R10). -/
def readV (s : State) (x : Nibble) : Byte := s.v[x.toNat]

/-- `V[x] <- b` (R7, R10). -/
def writeV (s : State) (x : Nibble) (b : Byte) : State := { s with v := s.v.set x.toNat b }

/-- `I <- a` (R7, R13). -/
def writeI (s : State) (a : Word) : State := { s with i := a }

/-- `DT <- b` (R7, R20). -/
def writeDt (s : State) (b : Byte) : State := { s with dt := b }

/-- `ST <- b` (R7, R20). -/
def writeSt (s : State) (b : Byte) : State := { s with st := b }

/-- The whole framebuffer at once (R25). -/
def writeFb (s : State) (fb : FrameBuffer) : State := { s with fb := fb }

/-- `FB[r][c]`, `true` for 1 (R7, R24). -/
def pixel (fb : FrameBuffer) (r : Fin 32) (c : Fin 64) : Bool := fb[r.val].getLsbD c.val

/-- `FB[r][c] <- b` (R7, R24). -/
def setPixel (fb : FrameBuffer) (r : Fin 32) (c : Fin 64) (b : Bool) : FrameBuffer :=
  if b then fb.set r.val (fb[r.val] ||| BitVec.twoPow 64 c.val)
  else fb.set r.val (fb[r.val] &&& ~~~BitVec.twoPow 64 c.val)

/-! ## Fetch and the ways to leave `PC` -/

/-- The instruction word at `PC`: two bytes, big-endian, each through the translator (20_memory R43). -/
def fetchWord (s : State) : Word := joinBytes (readByte s s.pc) (readByte s (s.pc + 1))

/-- `npc = (PC + 2) mod 65536` (R7, R70). -/
def npc (s : State) : Word := s.pc + 2

/-- End the instruction with `PC <- target` and the outcome `o` (R70). -/
def leave (s : State) (target : Word) (o : StepOutcome) : State :=
  { s with pc := target, reply := .outcome o }

/-- `PC <- npc`, outcome `None` (R15 (a)). -/
def advance (s : State) : State := leave s (npc s) .none

/-- `PC <- target`, outcome `None` (R15 (c) to (e)). -/
def jump (s : State) (target : Word) : State := leave s target .none

/-- `PC <- (npc + 2) mod 65536` when the condition holds, `PC <- npc` otherwise; outcome `None`
(R15 (b)). -/
def skipIf (s : State) (condition : Bool) : State :=
  leave s (if condition then npc s + 2 else npc s) .none

/-- `PC <- npc`, outcome `Redraw(FB)` with the framebuffer as it is now (R30, R31). -/
def redraw (s : State) : State := leave s (npc s) (.redraw s.fb)

/-- The pending phase of a wait: nothing changes, outcome `AwaitKey` (R15 (f), 46_await_key R170). -/
def await (s : State) : State := leave s s.pc .awaitKey

/-! ## Faults -/

/-- Taking a fault: `FAULT <- f`, no other machine state changes, `PC` included, and the step returns the
fault in place of an outcome (60_exceptions R204). There is no return from it; only `reset` leaves the
state (R205). -/
def raise (f : FaultRecord) (s : State) : Host.Outcome State Fault Refusal :=
  .next { s with fault := some f, reply := .fault f }

/-! ## The call stack -/

/-- Push `a`, or raise `StackOverflow(PC)` when 16 addresses are saved; `go` is the rest of the
instruction (R19). -/
def push (s : State) (a : Word) (go : State → State) : Host.Outcome State Fault Refusal :=
  if h : s.sp.val < 16 then
    .next (go { s with stack := s.stack.set s.sp.val a, sp := ⟨s.sp.val + 1, by omega⟩ })
  else raise (.stackOverflow s.pc) s

/-- Pop the top, or raise `StackUnderflow(PC)` when none is saved; `go` is the rest of the instruction,
given the popped address (R19). -/
def pop (s : State) (go : Word → State → State) : Host.Outcome State Fault Refusal :=
  if h : s.sp.val = 0 then raise (.stackUnderflow s.pc) s
  else .next (go s.stack[s.sp.val - 1] { s with sp := ⟨s.sp.val - 1, by omega⟩ })

/-! ## The random source -/

/-- The byte the random source gives to the `RND` that executes now (42 R132). -/
def randByte (s : State) : Byte := Config.rand s.draws

/-- One byte has been drawn: the next `RND` gets a fresh one (42 R132). -/
def afterDraw (s : State) : State := { s with draws := s.draws + 1 }

/-! ## The host's transactions -/

/-- The call the host makes next: the first of the listed ones, or a free one (60_exceptions R222). -/
def nextCall (s : State) : HostCall :=
  match s.calls with
  | c :: _ => c
  | [] => Config.hostCall s.callsDrawn

/-- The state once that call has been taken. -/
def afterCall (s : State) : State :=
  match s.calls with
  | _ :: cs => { s with calls := cs }
  | [] => { s with callsDrawn := s.callsDrawn + 1 }

/-- A `step(e)` call reaches the engine: `e` is the event of this step (R29, R70). -/
def beginStep (e : Event) (s : State) : State := { s with event := e }

/-- One timer on a tick: down by one, stopping at 0 (60_exceptions R215). -/
def countDown (t : Byte) : Byte := if t = 0x00#8 then 0x00#8 else t - 1

/-- The `tick` transition: both timers, nothing else; it returns nothing (60_exceptions R215). -/
def tickTimers (s : State) : State :=
  { s with dt := countDown s.dt, st := countDown s.st, reply := .nothing }

/-- The memory right after `reset(image)`: reset contents, and the image at 0x200 (70_reset R240). -/
def loadImage (font : Font) (image : List Byte) : Memory := Memory.storeList font [] 0x200 image

/-- The `reset(image)` transition: the whole machine state anew, whatever the old state, a faulted one
included; an image that does not fit has no meaning (70_reset R240, R241, R242). The font table is the
machine's own (R5) and stays. What is the model's own, the host's further calls and the two counters of free values, goes on. -/
def resetMachine (image : List Byte) (s : State) : Host.Outcome State Fault Refusal :=
  if HostCall.wf (.reset image) then
    .next { State.resetWith s.font with
      mem := loadImage s.font image, calls := s.calls, callsDrawn := s.callsDrawn, draws := s.draws }
  else .refused (.imageTooLong image.length)

end Sys2Proof.Machine
end

