-- ==== Sys2Proof/Machine/Operands.lean ====
section
/-!
DEFINITION. Every operand form of the instruction set: immediates, the effective address of a data access,
the parts of a register value, the held key, the pixels of a sprite.
-/

namespace Sys2Proof.Machine

/-- `zext_16(nnn)`, the use of an address immediate (30_encoding R63). -/
def zextAddr (nnn : Addr12) : Word := nnn.zeroExtend 16

/-- `zext_16(b)` for a register value (R131, R160). -/
def zextByte (b : Byte) : Word := b.zeroExtend 16

/-- `zext_8(k)` for a key code (R170). -/
def zextKey (k : Nibble) : Byte := k.zeroExtend 8

/-- `b[3:0]`, the low nibble of a register value (R150, R161). -/
def lowNibble (b : Byte) : Nibble := b.extractLsb' 0 4

/-- `(I + offset) mod 65536`, the raw address of a data access: the machine's one addressing mode
(45_index_memory R166). -/
def dataAddr (s : State) (offset : Nat) : Word := s.i + BitVec.ofNat 16 offset

/-- `zext_16(5 * V[x][3:0])`, the address of a glyph of the font (45_index_memory R161). -/
def glyphAddr (b : Byte) : Word := BitVec.ofNat 16 (5 * (lowNibble b).toNat)

/-- The three decimal digits of a byte, hundreds first (45_index_memory R162). -/
def bcdHundreds (b : Byte) : Byte := BitVec.ofNat 8 (b.toNat / 100)

/-- The tens digit (45_index_memory R162). -/
def bcdTens (b : Byte) : Byte := BitVec.ofNat 8 (b.toNat / 10 % 10)

/-- The ones digit (45_index_memory R162). -/
def bcdOnes (b : Byte) : Byte := BitVec.ofNat 8 (b.toNat % 10)

/-- The key an event holds: only `KeyPress(k)` holds one (44_keys_and_timers R150, D10). -/
def heldKey : Event → Option Nibble
  | .keyPress k => some k
  | .none => none
  | .keyResolved _ => none

/-- `held == V[x][3:0]`: the key the register asks for is held in this step (R150). -/
def keyIsHeld (s : State) (x : Nibble) : Bool := heldKey s.event == some (lowNibble (readV s x))

/-- The framebuffer row of sprite row `row`: `(V[y] + row) mod 32` (43_draw R141). -/
def spriteRow (vy : Byte) (row : Nat) : Fin 32 := ⟨(vy.toNat + row) % 32, Nat.mod_lt _ (by decide)⟩

/-- The framebuffer column of sprite column `col`: `(V[x] + col) mod 64` (43_draw R141). -/
def spriteCol (vx : Byte) (col : Nat) : Fin 64 := ⟨(vx.toNat + col) % 64, Nat.mod_lt _ (by decide)⟩

/-- The sprite bit of column `col`: bit `7 - col` of the sprite byte (43_draw R141). -/
def spriteBit (sprite : Byte) (col : Nat) : Bool := sprite.getLsbD (7 - col)

end Sys2Proof.Machine
end

