-- ==== Sys2Proof/Machine/Flags.lean ====
section
/-!
DEFINITION. The flag register `VF` = `V[15]` and every flag computation of the spec (10_state R12,
41_immediate_and_alu R122, 43_draw R142).
-/

namespace Sys2Proof.Machine

/-- The register index of `VF` (R12). -/
def flagIndex : Nibble := 0xF#4

/-- A flag writes the whole register with 0 or 1 (R12). -/
def flagByte (f : Bool) : Byte := if f then 0x01#8 else 0x00#8

/-- `V[15] <- f` (R12). -/
def setFlag (s : State) (f : Bool) : State := writeV s flagIndex (flagByte f)

/-- `ADD`: 1 exactly when the true sum is 256 or more (R117). -/
def carryFlag (a b : Byte) : Bool := decide (a.toNat + b.toNat > 255)

/-- `SUB`, `SUBN`: 1 exactly when the value subtracted from is strictly greater (R118, R120; C1). -/
def greaterFlag (minuend subtrahend : Byte) : Bool := decide (minuend.toNat > subtrahend.toNat)

/-- `SHR`: bit 0 of the value before the shift (R119). -/
def lowBitFlag (a : Byte) : Bool := a.getLsbD 0

/-- `SHL`: bit 7 of the value before the shift (R121). -/
def highBitFlag (a : Byte) : Bool := a.getLsbD 7

/-- One sprite bit collides when it is 1 and lands on a lit pixel (43_draw R142). -/
def collides (lit bit : Bool) : Bool := bit && lit

/-- The write order of the five flag-writing ALU instructions: the result to `V[x]`, then the flag to
`V[15]`; then `PC <- npc` (R112, R123). -/
def writeResultAndFlag (s : State) (x : Nibble) (result : Byte) (flag : Bool) : State :=
  advance (setFlag (writeV s x result) flag)

end Sys2Proof.Machine
end

