-- ==== Sys2Proof/Machine/Alu.lean ====
section
/-!
DEFINITION. Load immediate, add immediate and the nine register-to-register ALU instructions
(41_immediate_and_alu R110 to R123). Operands are read from the state before any write (R112).
-/

namespace Sys2Proof.Machine

/-- `LD Vx,kk` (R110). -/
def execLdImm (x : Nibble) (kk : Byte) (s : State) : Host.Outcome State Fault Refusal :=
  .next (advance (writeV s x kk))

/-- `ADD Vx,kk`, no flag (R111). -/
def execAddImm (x : Nibble) (kk : Byte) (s : State) : Host.Outcome State Fault Refusal :=
  .next (advance (writeV s x (readV s x + kk)))

/-- `LD Vx,Vy` (R113). -/
def execLdReg (x y : Nibble) (s : State) : Host.Outcome State Fault Refusal :=
  .next (advance (writeV s x (readV s y)))

/-- `OR Vx,Vy` (R114). -/
def execOrReg (x y : Nibble) (s : State) : Host.Outcome State Fault Refusal :=
  .next (advance (writeV s x (readV s x ||| readV s y)))

/-- `AND Vx,Vy` (R115). -/
def execAndReg (x y : Nibble) (s : State) : Host.Outcome State Fault Refusal :=
  .next (advance (writeV s x (readV s x &&& readV s y)))

/-- `XOR Vx,Vy` (R116). -/
def execXorReg (x y : Nibble) (s : State) : Host.Outcome State Fault Refusal :=
  .next (advance (writeV s x (readV s x ^^^ readV s y)))

/-- `ADD Vx,Vy` (R117). -/
def execAddReg (x y : Nibble) (s : State) : Host.Outcome State Fault Refusal :=
  .next (writeResultAndFlag s x (readV s x + readV s y) (carryFlag (readV s x) (readV s y)))

/-- `SUB Vx,Vy` (R118). -/
def execSub (x y : Nibble) (s : State) : Host.Outcome State Fault Refusal :=
  .next (writeResultAndFlag s x (readV s x - readV s y) (greaterFlag (readV s x) (readV s y)))

/-- `SHR Vx`: `V[x]` in place (R119). -/
def execShr (x : Nibble) (s : State) : Host.Outcome State Fault Refusal :=
  .next (writeResultAndFlag s x (readV s x >>> 1) (lowBitFlag (readV s x)))

/-- `SUBN Vx,Vy` (R120). -/
def execSubn (x y : Nibble) (s : State) : Host.Outcome State Fault Refusal :=
  .next (writeResultAndFlag s x (readV s y - readV s x) (greaterFlag (readV s y) (readV s x)))

/-- `SHL Vx`: `V[x]` in place (R121). -/
def execShl (x : Nibble) (s : State) : Host.Outcome State Fault Refusal :=
  .next (writeResultAndFlag s x (readV s x <<< 1) (highBitFlag (readV s x)))

end Sys2Proof.Machine
end

