-- ==== Sys2Proof/Machine/AwaitKey.lean ====
section
/-!
DEFINITION. Await key press, the two-phase blocking instruction (46_await_key R170 to R172).
-/

namespace Sys2Proof.Machine

/-- `LD Vx,K`: `KeyResolved(k)` stores the key and goes on; any other event leaves everything as it is
and the step returns `AwaitKey` (R170, R172). -/
def execLdK (x : Nibble) (s : State) : Host.Outcome State Fault Refusal :=
  match s.event with
  | .keyResolved k => .next (advance (writeV s x (zextKey k)))
  | .none => .next (await s)
  | .keyPress _ => .next (await s)

end Sys2Proof.Machine
end

