-- ==== Sys2Proof/Machine/Draw.lean ====
section
/-!
DEFINITION. Draw sprite and the collision detector (43_draw R140 to R145), in the order of the spec's
loops: rows from the top, in each row the columns from the left, one pixel at a time.
-/

namespace Sys2Proof.Machine

/-- One sprite bit on the pixel at `(r, c)`: the collision found so far, and `FB[r][c] ^ bit`. -/
def blitPixel (r : Fin 32) (c : Fin 64) (bit : Bool) (p : FrameBuffer × Bool) : FrameBuffer × Bool :=
  (setPixel p.1 r c (pixel p.1 r c ^^ bit), p.2 || collides (pixel p.1 r c) bit)

/-- One sprite byte, columns 0 to 7, into framebuffer row `r`. -/
def blitRow (vx : Byte) (r : Fin 32) (sprite : Byte) (p : FrameBuffer × Bool) : FrameBuffer × Bool :=
  (List.range 8).foldl (fun q col => blitPixel r (spriteCol vx col) (spriteBit sprite col) q) p

/-- The first `n` rows of the sprite at `I`, drawn at `(vx, vy)`: the framebuffer and `hit`. -/
def blitSprite (s : State) (vx vy : Byte) (n : Nat) : FrameBuffer × Bool :=
  (List.range n).foldl
    (fun q row => blitRow vx (spriteRow vy row) (readByte s (dataAddr s row)) q) (s.fb, false)

/-- `DRW Vx,Vy,n`: coordinates first, the sprite, the flag once, `Redraw` always (R140, R143, R145). -/
def execDrw (x y n : Nibble) (s : State) : Host.Outcome State Fault Refusal :=
  let drawn := blitSprite s (readV s x) (readV s y) n.toNat
  .next (redraw (setFlag (writeFb s drawn.1) drawn.2))

end Sys2Proof.Machine
end

