-- ==== Sys2Proof/Machine/Flow.lean ====
section
/-!
DEFINITION. Clear screen, return, jump, call and the four compare-and-skip instructions
(40_screen_and_flow R100 to R107).
-/

namespace Sys2Proof.Machine

/-- `CLS` (R100). -/
def execCls (s : State) : Host.Outcome State Fault Refusal :=
  .next (redraw (writeFb s blankScreen))

/-- `RET` (R101). -/
def execRet (s : State) : Host.Outcome State Fault Refusal := pop s fun a s' => jump s' a

/-- `JP nnn` (R102). -/
def execJp (nnn : Addr12) (s : State) : Host.Outcome State Fault Refusal :=
  .next (jump s (zextAddr nnn))

/-- `CALL nnn`: the saved address is `npc` (R103). -/
def execCall (nnn : Addr12) (s : State) : Host.Outcome State Fault Refusal :=
  push s (npc s) fun s' => jump s' (zextAddr nnn)

/-- `SE Vx,kk` (R104). -/
def execSeImm (x : Nibble) (kk : Byte) (s : State) : Host.Outcome State Fault Refusal :=
  .next (skipIf s (readV s x == kk))

/-- `SNE Vx,kk` (R105). -/
def execSneImm (x : Nibble) (kk : Byte) (s : State) : Host.Outcome State Fault Refusal :=
  .next (skipIf s (readV s x != kk))

/-- `SE Vx,Vy` (R106). -/
def execSeReg (x y : Nibble) (s : State) : Host.Outcome State Fault Refusal :=
  .next (skipIf s (readV s x == readV s y))

/-- `SNE Vx,Vy` (R107). -/
def execSneReg (x y : Nibble) (s : State) : Host.Outcome State Fault Refusal :=
  .next (skipIf s (readV s x != readV s y))

end Sys2Proof.Machine
end

