-- ==== Sys2Proof/Machine/IndexJumpRandom.lean ====
section
/-!
DEFINITION. Load index register, jump with offset, random (42_index_jump_random R130 to R132).
-/

namespace Sys2Proof.Machine

/-- `LD I,nnn` (R130). -/
def execLdI (nnn : Addr12) (s : State) : Host.Outcome State Fault Refusal :=
  .next (advance (writeI s (zextAddr nnn)))

/-- `JP V0,nnn`: the 16-bit sum, not reduced to 12 bits (R131). -/
def execJpV0 (nnn : Addr12) (s : State) : Host.Outcome State Fault Refusal :=
  .next (jump s (zextAddr nnn + zextByte (readV s 0x0#4)))

/-- `RND Vx,kk`: a fresh free byte under the mask `kk` (R132). -/
def execRnd (x : Nibble) (kk : Byte) (s : State) : Host.Outcome State Fault Refusal :=
  .next (advance (writeV (afterDraw s) x (randByte s &&& kk)))

end Sys2Proof.Machine
end

