-- ==== Sys2Proof/Machine/IndexMemory.lean ====
section
/-!
DEFINITION. Index arithmetic, font address, BCD store, bulk store and bulk load (45_index_memory R160 to
R164). `I` is an operand of the last three and is not changed by them.
-/

namespace Sys2Proof.Machine

/-- `ADD I,Vx`: 16-bit wraparound, no flag (R160). -/
def execAddI (x : Nibble) (s : State) : Host.Outcome State Fault Refusal :=
  .next (advance (writeI s (s.i + zextByte (readV s x))))

/-- `LD F,Vx` (R161). -/
def execLdF (x : Nibble) (s : State) : Host.Outcome State Fault Refusal :=
  .next (advance (writeI s (glyphAddr (readV s x))))

/-- `LD B,Vx`: hundreds, tens, ones at `I`, `I + 1`, `I + 2` (R162). -/
def execLdB (x : Nibble) (s : State) : Host.Outcome State Fault Refusal :=
  let b := readV s x
  .next (advance
    (writeByte (writeByte (writeByte s (dataAddr s 0) (bcdHundreds b)) (dataAddr s 1) (bcdTens b))
      (dataAddr s 2) (bcdOnes b)))

/-- `V[0]` to `V[k-1]` into memory from `I` up, in rising order (R163). -/
def storeFirst (s : State) : Nat → State
  | 0 => s
  | k + 1 => writeByte (storeFirst s k) (dataAddr s k) (readV s (BitVec.ofNat 4 k))

/-- `LD [I],Vx`: `V[0]` to `V[x]`, `x` itself included (R163). -/
def execStoreRegs (x : Nibble) (s : State) : Host.Outcome State Fault Refusal :=
  .next (advance (storeFirst s (x.toNat + 1)))

/-- `V[0]` to `V[k-1]` from memory from `I` up, in rising order (R164). -/
def loadFirst (s : State) : Nat → State
  | 0 => s
  | k + 1 => writeV (loadFirst s k) (BitVec.ofNat 4 k) (readByte s (dataAddr s k))

/-- `LD Vx,[I]`: `V[0]` to `V[x]`, `x` itself included (R164). -/
def execLoadRegs (x : Nibble) (s : State) : Host.Outcome State Fault Refusal :=
  .next (advance (loadFirst s (x.toNat + 1)))

end Sys2Proof.Machine
end

