-- ==== Sys2Proof/Machine/KeysTimers.lean ====
section
/-!
DEFINITION. Skip on key state and the three timer moves (44_keys_and_timers R150 to R154).
-/

namespace Sys2Proof.Machine

/-- `SKP Vx` (R150). -/
def execSkp (x : Nibble) (s : State) : Host.Outcome State Fault Refusal :=
  .next (skipIf s (keyIsHeld s x))

/-- `SKNP Vx` (R151). -/
def execSknp (x : Nibble) (s : State) : Host.Outcome State Fault Refusal :=
  .next (skipIf s (!keyIsHeld s x))

/-- `LD Vx,DT` (R152). -/
def execLdVxDt (x : Nibble) (s : State) : Host.Outcome State Fault Refusal :=
  .next (advance (writeV s x s.dt))

/-- `LD DT,Vx` (R153). -/
def execLdDtVx (x : Nibble) (s : State) : Host.Outcome State Fault Refusal :=
  .next (advance (writeDt s (readV s x)))

/-- `LD ST,Vx` (R154). -/
def execLdStVx (x : Nibble) (s : State) : Host.Outcome State Fault Refusal :=
  .next (advance (writeSt s (readV s x)))

end Sys2Proof.Machine
end

