-- ==== Sys2Proof/Machine/Step.lean ====
section
/-!
DEFINITION. One step of the machine: the transaction the host calls next (00_scope R2, 30_encoding R70,
60_exceptions R205, R206, R220).
-/

namespace Sys2Proof.Machine

/-- The frame of one `step(event)`: fetch, decode, execute; the word that is no instruction raises
`DecodeFailure(w, PC)` (30_encoding R70). -/
def runInstr (s : State) : Host.Outcome State Fault Refusal :=
  match decodeWord (fetchWord s) with
  | .ok i => exec i s
  | .error _ => raise (.decodeFailure (fetchWord s) s.pc) s

/-- One transition: take the host's next call and perform it. While `FAULT` is not `none` no `step` and
no `tick` exists (60_exceptions R205); `reset` always does (70_reset R240). -/
def step (s : State) : Host.Outcome State Fault Refusal :=
  match nextCall s, s.fault with
  | .reset image, _ => resetMachine image (afterCall s)
  | .tick, none => .next (tickTimers (afterCall s))
  | .step e, none => runInstr (beginStep e (afterCall s))
  | .tick, some f => .fault (.halted f)
  | .step _, some f => .fault (.halted f)

/-- `s` with the word `w` stored where the next `step` fetches, and made such that the next transition IS
a `step`: a `step` call with the state's event is put before the listed calls, and `FAULT` is `none` (a
faulted machine does not fetch). Log entry 4. -/
def State.withFetchWord (s : State) (nbits w : Nat) : State :=
  { writeByte (writeByte s s.pc (highByte (tableWord nbits w))) (s.pc + 1) (lowByte (tableWord nbits w)) with
    calls := .step s.event :: s.calls, fault := none }

end Sys2Proof.Machine
end

