-- ==== Sys2Proof/Safety.lean ====
section
/-!
DEFINITION. The terms claims are stated in: a run that has not faulted, a state at rest, the invariant of
the machine, and what an instruction leaves unchanged.
-/

namespace Sys2Proof.Machine

/-- The run has not been aborted; a faulted state is never a good end (60_exceptions R205). -/
def running (s : State) : Bool := s.fault.isNone

/-- *At rest*: `FAULT == none` and the word at `PC` is `JP nnn` with `nnn == PC mod 4096` and
`PC < 4096`, the jump to itself (70_reset_and_hazards R246). -/
def AtRest (s : State) : Prop :=
  s.fault = none ∧ s.pc.toNat < 4096 ∧
    ∃ nnn : Addr12, decodeWord (fetchWord s) = .ok (.jp nnn) ∧ nnn.toNat = s.pc.toNat % 4096

/-- What the last transaction returned agrees with the state: a fault exactly when `FAULT` holds it
(R204), and a `Redraw` carries the framebuffer as it is (R30). -/
def replyAgrees (s : State) : Bool :=
  match s.fault, s.reply with
  | some f, .fault g => f == g
  | some _, .nothing => false
  | some _, .outcome _ => false
  | none, .fault _ => false
  | none, .nothing => true
  | none, .outcome .none => true
  | none, .outcome .awaitKey => true
  | none, .outcome (.redraw fb) => fb == s.fb

/-- The invariant every transition keeps: `MEM` is in canonical form, so it has exactly 4096 bytes (R34),
and the reply agrees with the state (the form and the reply are the model's, log entries 16 and 8). The
other bounds of R34 hold by type. -/
def invariant (s : State) : Bool := s.mem.wf s.font && replyAgrees s

/-! ## Frames: what an instruction leaves unchanged -/

/-- Every general register but those listed is unchanged. -/
def VKept (written : List Nibble) (s t : State) : Prop := ∀ r, r ∉ written → readV t r = readV s r

/-- Every byte of memory is unchanged. -/
def MemKept (s t : State) : Prop := ∀ a, readByte t a = readByte s a

/-- Every byte of memory is unchanged except the `n` bytes from the raw address `base` up, each address
through the translator. -/
def MemKeptOutside (base : Word) (n : Nat) (s t : State) : Prop :=
  ∀ a, (∀ k, k < n → physical a ≠ physical (base + BitVec.ofNat 16 k)) → readByte t a = readByte s a

/-- The call stack and its pointer are unchanged. -/
def StackKept (s t : State) : Prop := t.sp = s.sp ∧ ∀ j : Fin 16, t.stack[j.val] = s.stack[j.val]

/-- Both timers are unchanged. -/
def TimersKept (s t : State) : Prop := t.dt = s.dt ∧ t.st = s.st

/-- Every pixel is unchanged. -/
def ScreenKept (s t : State) : Prop := ∀ r c, pixel t.fb r c = pixel s.fb r c

/-- `FAULT`, the font table, the event, the host's calls and the count of random draws are unchanged. -/
def HostKept (s t : State) : Prop :=
  t.fault = s.fault ∧ t.font = s.font ∧ t.event = s.event ∧ t.calls = s.calls ∧
    t.callsDrawn = s.callsDrawn ∧ t.draws = s.draws

/-- Nothing but general registers of the list, `PC` and the reply has changed. -/
def OnlyV (written : List Nibble) (s t : State) : Prop :=
  VKept written s t ∧ t.i = s.i ∧ MemKept s t ∧ StackKept s t ∧ TimersKept s t ∧ ScreenKept s t ∧
    HostKept s t

/-- No machine state but `FAULT` has changed (60_exceptions R204). -/
def OnlyFault (s t : State) : Prop :=
  VKept [] s t ∧ t.i = s.i ∧ t.pc = s.pc ∧ MemKept s t ∧ StackKept s t ∧ TimersKept s t ∧ ScreenKept s t

/-! ## What the spec says of each instruction, written from its tables -/

/-- What the next fetch of `t` gives when the bytes of the list were stored from `I` of `s` up: each half of
the word is the stored byte where one of them covers it, each address through the translator, and the byte
memory held before where none does (20_memory R52). -/
def FetchSees (stored : List Byte) (s t : State) : Prop :=
  (∀ (k : Nat) (h : k < stored.length), physical (s.i + BitVec.ofNat 16 k) = physical (s.pc + 2) →
    highByte (fetchWord t) = stored[k]) ∧
  (∀ (k : Nat) (h : k < stored.length), physical (s.i + BitVec.ofNat 16 k) = physical (s.pc + 3) →
    lowByte (fetchWord t) = stored[k]) ∧
  ((∀ k < stored.length, physical (s.i + BitVec.ofNat 16 k) ≠ physical (s.pc + 2)) →
    highByte (fetchWord t) = readByte s (s.pc + 2)) ∧
  ((∀ k < stored.length, physical (s.i + BitVec.ofNat 16 k) ≠ physical (s.pc + 3)) →
    lowByte (fetchWord t) = readByte s (s.pc + 3))

/-- The top of the stack, `STACK[SP-1]` (R18); of use only when `SP` is not 0. -/
def stackTop (s : State) : Word := s.stack[s.sp.val - 1]

/-- A skip: 4 in total when its condition holds, 2 otherwise (R15 (b)). -/
def skipPc (s : State) (condition : Bool) : Word := if condition then s.pc + 4 else s.pc + 2

/-- How each instruction leaves `PC` (10_state R15): (b) the six skips, (c) `JP` and `CALL`, (d) `JP V0`,
(e) `RET`, (f) `LD Vx,K`, (g) a stack fault, and (a) all the others. -/
def pcAfter (i : Instr) (s : State) : Word :=
  match i with
  | .seImm x kk => skipPc s (readV s x == kk)
  | .sneImm x kk => skipPc s (readV s x != kk)
  | .seReg x y => skipPc s (readV s x == readV s y)
  | .sneReg x y => skipPc s (readV s x != readV s y)
  | .skp x => skipPc s (s.event == .keyPress (lowNibble (readV s x)))
  | .sknp x => skipPc s (s.event != .keyPress (lowNibble (readV s x)))
  | .jp nnn => BitVec.ofNat 16 nnn.toNat
  | .call nnn => if s.sp.val = 16 then s.pc else BitVec.ofNat 16 nnn.toNat
  | .jpV0 nnn => BitVec.ofNat 16 (nnn.toNat + (readV s 0x0#4).toNat)
  | .ret => if s.sp.val = 0 then s.pc else stackTop s
  | .ldK _ =>
    match s.event with
    | .keyResolved _ => s.pc + 2
    | _ => s.pc
  | .cls => s.pc + 2
  | .ldImm _ _ => s.pc + 2
  | .addImm _ _ => s.pc + 2
  | .ldReg _ _ => s.pc + 2
  | .orReg _ _ => s.pc + 2
  | .andReg _ _ => s.pc + 2
  | .xorReg _ _ => s.pc + 2
  | .addReg _ _ => s.pc + 2
  | .sub _ _ => s.pc + 2
  | .shr _ _ => s.pc + 2
  | .subn _ _ => s.pc + 2
  | .shl _ _ => s.pc + 2
  | .ldI _ => s.pc + 2
  | .rnd _ _ => s.pc + 2
  | .drw _ _ _ => s.pc + 2
  | .ldVxDt _ => s.pc + 2
  | .ldDtVx _ => s.pc + 2
  | .ldStVx _ => s.pc + 2
  | .addI _ => s.pc + 2
  | .ldF _ => s.pc + 2
  | .ldB _ => s.pc + 2
  | .storeRegs _ => s.pc + 2
  | .loadRegs _ => s.pc + 2

/-- What a step that executes the instruction returns (10_state R31): `t` is the state after it. A `CALL`
or `RET` that faults returns the fault in place of an outcome (R30). -/
def replyAfter (i : Instr) (s t : State) : Reply :=
  match i with
  | .cls => .outcome (.redraw t.fb)
  | .drw _ _ _ => .outcome (.redraw t.fb)
  | .ldK _ =>
    match s.event with
    | .keyResolved _ => .outcome .none
    | _ => .outcome .awaitKey
  | .call _ => if s.sp.val = 16 then .fault (.stackOverflow s.pc) else .outcome .none
  | .ret => if s.sp.val = 0 then .fault (.stackUnderflow s.pc) else .outcome .none
  | .jp _ => .outcome .none
  | .seImm _ _ => .outcome .none
  | .sneImm _ _ => .outcome .none
  | .seReg _ _ => .outcome .none
  | .sneReg _ _ => .outcome .none
  | .ldImm _ _ => .outcome .none
  | .addImm _ _ => .outcome .none
  | .ldReg _ _ => .outcome .none
  | .orReg _ _ => .outcome .none
  | .andReg _ _ => .outcome .none
  | .xorReg _ _ => .outcome .none
  | .addReg _ _ => .outcome .none
  | .sub _ _ => .outcome .none
  | .shr _ _ => .outcome .none
  | .subn _ _ => .outcome .none
  | .shl _ _ => .outcome .none
  | .ldI _ => .outcome .none
  | .jpV0 _ => .outcome .none
  | .rnd _ _ => .outcome .none
  | .skp _ => .outcome .none
  | .sknp _ => .outcome .none
  | .ldVxDt _ => .outcome .none
  | .ldDtVx _ => .outcome .none
  | .ldStVx _ => .outcome .none
  | .addI _ => .outcome .none
  | .ldF _ => .outcome .none
  | .ldB _ => .outcome .none
  | .storeRegs _ => .outcome .none
  | .loadRegs _ => .outcome .none

/-- The general registers an instruction may write (10_state R11). -/
def writesV (i : Instr) : List Nibble :=
  match i with
  | .ldImm x _ => [x]
  | .addImm x _ => [x]
  | .ldReg x _ => [x]
  | .orReg x _ => [x]
  | .andReg x _ => [x]
  | .xorReg x _ => [x]
  | .addReg x _ => [x, 0xF#4]
  | .sub x _ => [x, 0xF#4]
  | .shr x _ => [x, 0xF#4]
  | .subn x _ => [x, 0xF#4]
  | .shl x _ => [x, 0xF#4]
  | .rnd x _ => [x]
  | .drw _ _ _ => [0xF#4]
  | .ldVxDt x => [x]
  | .loadRegs x => (List.range (x.toNat + 1)).map (BitVec.ofNat 4)
  | .ldK x => [x]
  | .cls => []
  | .ret => []
  | .jp _ => []
  | .call _ => []
  | .seImm _ _ => []
  | .sneImm _ _ => []
  | .seReg _ _ => []
  | .sneReg _ _ => []
  | .ldI _ => []
  | .jpV0 _ => []
  | .skp _ => []
  | .sknp _ => []
  | .ldDtVx _ => []
  | .ldStVx _ => []
  | .addI _ => []
  | .ldF _ => []
  | .ldB _ => []
  | .storeRegs _ => []

end Sys2Proof.Machine
end

