-- ==== Sys2Proof/Certificates/Slice0/Obligations.lean ====
section
/-!
DEFINITION. The statements for the provers. Rules R<n> are those of spec/; the frames and the tables
`pcAfter`, `replyAfter`, `writesV` are in Sys2Proof/Safety.lean.
-/

open Sys2Proof Sys2Proof.Machine

/-! ## Encoding -/

/-- Decoding an encoded instruction gives it back, from the word and from the bytes in memory order, for
every instruction and every operand value (R65: every operand value is legal). -/
def Obligations.DecodeOfEncode : Prop :=
  ∀ (i : Instr) (rest : List Byte),
    decodeWord (encode i) = .ok i ∧ decode (encodeBytes i ++ rest) = .ok (i, rest)

/-- A word that decodes is the encoding of what it decodes to, so no word has two readings and no operand
bit is dropped, the ignored field `y` of the shifts included (R66, R68). -/
def Obligations.EncodeOfDecode : Prop :=
  ∀ (w : Word) (i : Instr), decodeWord w = .ok i → encode i = w

/-- The words that are no instruction are exactly the six classes of R67, written as numbers. -/
def Obligations.IllegalWordsAreTheSixClasses : Prop :=
  ∀ w : Word, (∃ r, decodeWord w = .error r) ↔
    (w.toNat / 4096 = 0 ∧ w.toNat % 4096 ≠ 0x0E0 ∧ w.toNat % 4096 ≠ 0x0EE) ∨
    (w.toNat / 4096 = 5 ∧ w.toNat % 16 ≠ 0) ∨
    (w.toNat / 4096 = 9 ∧ w.toNat % 16 ≠ 0) ∨
    (w.toNat / 4096 = 8 ∧ w.toNat % 16 ∈ [0x8, 0x9, 0xA, 0xB, 0xC, 0xD, 0xF]) ∨
    (w.toNat / 4096 = 0xE ∧ w.toNat % 256 ∉ [0x9E, 0xA1]) ∨
    (w.toNat / 4096 = 0xF ∧
      w.toNat % 256 ∉ [0x07, 0x0A, 0x15, 0x18, 0x1E, 0x29, 0x33, 0x55, 0x65])

/-- A word for each of the 16 first nibbles, taken from the spec's examples and vectors, decodes to its
instruction (R62, R65, R66). -/
def Obligations.SpecWordsDecode : Prop :=
  decodeWord 0x00E0#16 = .ok .cls ∧ decodeWord 0x00EE#16 = .ok .ret ∧
  decodeWord 0x1204#16 = .ok (.jp 0x204#12) ∧ decodeWord 0x220C#16 = .ok (.call 0x20C#12) ∧
  decodeWord 0x3F01#16 = .ok (.seImm 0xF#4 0x01#8) ∧ decodeWord 0x40FF#16 = .ok (.sneImm 0x0#4 0xFF#8) ∧
  decodeWord 0x5120#16 = .ok (.seReg 0x1#4 0x2#4) ∧ decodeWord 0x6A2F#16 = .ok (.ldImm 0xA#4 0x2F#8) ∧
  decodeWord 0x71FF#16 = .ok (.addImm 0x1#4 0xFF#8) ∧ decodeWord 0x80A6#16 = .ok (.shr 0x0#4 0xA#4) ∧
  decodeWord 0x9120#16 = .ok (.sneReg 0x1#4 0x2#4) ∧ decodeWord 0xA2F0#16 = .ok (.ldI 0x2F0#12) ∧
  decodeWord 0xB300#16 = .ok (.jpV0 0x300#12) ∧ decodeWord 0xC30F#16 = .ok (.rnd 0x3#4 0x0F#8) ∧
  decodeWord 0xDF11#16 = .ok (.drw 0xF#4 0x1#4 0x1#4) ∧ decodeWord 0xE2A1#16 = .ok (.sknp 0x2#4) ∧
  decodeWord 0xF255#16 = .ok (.storeRegs 0x2#4) ∧ decodeWord 0xF30A#16 = .ok (.ldK 0x3#4)

/-! ## Reset -/

/-- The state right after reset, for every font table (R5, R32, R240); `State.reset` is the one whose table
holds the 80 bytes R33 prints, digit by digit. Zero registers, timers, stack and unused memory are the spec's
decision D14 (log entry 5), the default font its D15 (log entry 6), where the table is kept log entry 17. -/
def Obligations.ResetState : Prop :=
  (∀ font : Font, (∀ x, readV (State.resetWith font) x = 0) ∧ (State.resetWith font).i = 0 ∧
    (State.resetWith font).pc = 0x0200 ∧ (State.resetWith font).sp.val = 0 ∧
    (∀ j : Fin 16, (State.resetWith font).stack[j.val] = 0) ∧
    (State.resetWith font).dt = 0 ∧ (State.resetWith font).st = 0 ∧
    (∀ r c, pixel (State.resetWith font).fb r c = false) ∧
    (State.resetWith font).fault = none ∧ (State.resetWith font).reply = .nothing ∧
    ∀ a : Word, readByte (State.resetWith font) a =
      if h : physical a < 80 then font[physical a] else 0) ∧
  State.reset = State.resetWith State.reset.font ∧
  State.reset.font.toList =
    [0xF0#8, 0x90#8, 0x90#8, 0x90#8, 0xF0#8] ++ [0x20#8, 0x60#8, 0x20#8, 0x20#8, 0x70#8] ++
    [0xF0#8, 0x10#8, 0xF0#8, 0x80#8, 0xF0#8] ++ [0xF0#8, 0x10#8, 0xF0#8, 0x10#8, 0xF0#8] ++
    [0x90#8, 0x90#8, 0xF0#8, 0x10#8, 0x10#8] ++ [0xF0#8, 0x80#8, 0xF0#8, 0x10#8, 0xF0#8] ++
    [0xF0#8, 0x80#8, 0xF0#8, 0x90#8, 0xF0#8] ++ [0xF0#8, 0x10#8, 0x20#8, 0x40#8, 0x40#8] ++
    [0xF0#8, 0x90#8, 0xF0#8, 0x90#8, 0xF0#8] ++ [0xF0#8, 0x90#8, 0xF0#8, 0x10#8, 0xF0#8] ++
    [0xF0#8, 0x90#8, 0xF0#8, 0x90#8, 0x90#8] ++ [0xE0#8, 0x90#8, 0xE0#8, 0x90#8, 0xE0#8] ++
    [0xF0#8, 0x80#8, 0x80#8, 0x80#8, 0xF0#8] ++ [0xE0#8, 0x90#8, 0x90#8, 0x90#8, 0xE0#8] ++
    [0xF0#8, 0x80#8, 0xF0#8, 0x80#8, 0xF0#8] ++ [0xF0#8, 0x80#8, 0xF0#8, 0x80#8, 0x80#8]

/-- A reset call makes the whole machine state anew from any state, a faulted one included, with byte `k`
of the image at 0x200 + `k` and the font table, which stays, at 0x000 (R240, R241, R242; the zero values are
D14, log entry 5; where the table is kept is log entry 17). -/
def Obligations.ResetCallLoadsImage : Prop :=
  ∀ (s : State) (image : List Byte), nextCall s = .reset image → image.length ≤ 3584 →
    ∃ t, step s = .next t ∧
      (∀ k (h : k < image.length), readByte t (BitVec.ofNat 16 (0x200 + k)) = image[k]) ∧
      (∀ a : Word, ¬ (0x200 ≤ physical a ∧ physical a < 0x200 + image.length) →
        readByte t a = if h : physical a < 80 then s.font[physical a] else 0) ∧
      (∀ x, readV t x = 0) ∧ t.i = 0 ∧ t.pc = 0x0200 ∧ t.sp.val = 0 ∧ (∀ j : Fin 16, t.stack[j.val] = 0) ∧
      t.dt = 0 ∧ t.st = 0 ∧ (∀ r c, pixel t.fb r c = false) ∧ t.fault = none ∧ t.font = s.font ∧
      t.reply = .nothing

/-- An image longer than 3584 bytes has no meaning: the step is refused by name (R241, D16; log entry 10). -/
def Obligations.LongImageIsRefused : Prop :=
  ∀ (s : State) (image : List Byte), nextCall s = .reset image → 3584 < image.length →
    step s = .refused (.imageTooLong image.length)

/-! ## The step, the fetch and the faults -/

/-- A `step(e)` call runs the instruction the word at `PC` decodes to, in the state whose event is `e` and
whose host calls are those after this one; nothing else is added around it (R70). The list of host calls is
the model's form of the schedule (log entries 1 and 2). -/
def Obligations.StepRunsTheDecodedInstruction : Prop :=
  ∀ (s : State) (e : Event) (i : Instr), nextCall s = .step e → s.fault = none → i.wf = true →
    decodeWord (fetchWord s) = .ok i →
    step s = exec i { s with
      event := e, calls := s.calls.tail,
      callsDrawn := if s.calls = [] then s.callsDrawn + 1 else s.callsDrawn }

/-- A fetched word that is no instruction raises `DecodeFailure(w, PC)` before anything else, and nothing
else raises it; no other state changes, the step returns the fault, and the run is over: what follows can
only be a reset (R201). That no state but `FAULT` changes and that nothing but a reset follows are the spec's
decision D17 (R204, R205), the stop after a fault log entry 9. -/
def Obligations.IllegalWordFaults : Prop :=
  (∀ (s : State) (e : Event), nextCall s = .step e → s.fault = none →
    (∀ i, decodeWord (fetchWord s) ≠ .ok i) →
    ∃ t, step s = .next t ∧ t.fault = some (.decodeFailure (fetchWord s) s.pc) ∧
      t.reply = .fault (.decodeFailure (fetchWord s) s.pc) ∧ OnlyFault s t ∧
      ∀ u, step t = .next u → ∃ image, nextCall t = .reset image) ∧
  (∀ (s t : State) (w p : Word), s.fault = none → step s = .next t →
    t.fault = some (.decodeFailure w p) →
    (∃ e, nextCall s = .step e) ∧ w = fetchWord s ∧ p = s.pc ∧ ∀ i, decodeWord w ≠ .ok i)

/-- `CALL` with 16 addresses saved and `RET` with none fault before any write: only `FAULT` changes, the
stack, `SP` and `PC` are untouched, the instruction returns the fault, and the run is over: what follows can
only be a reset (R202). What else stays and that nothing but a reset follows are the spec's decision D17
(R204, R205), the stop after a fault log entry 9. -/
def Obligations.StackFaultsChangeNothing : Prop :=
  (∀ (nnn : Addr12) (s : State), s.sp.val = 16 →
    ∃ t, exec (.call nnn) s = .next t ∧ t.fault = some (.stackOverflow s.pc) ∧
      t.reply = .fault (.stackOverflow s.pc) ∧ OnlyFault s t ∧
      ∀ u, step t = .next u → ∃ image, nextCall t = .reset image) ∧
  (∀ s : State, s.sp.val = 0 →
    ∃ t, exec .ret s = .next t ∧ t.fault = some (.stackUnderflow s.pc) ∧
      t.reply = .fault (.stackUnderflow s.pc) ∧ OnlyFault s t ∧
      ∀ u, step t = .next u → ∃ image, nextCall t = .reset image)

/-- `FAULT` is set by nothing but a `step` whose word is no instruction, a `CALL` at `SP` = 16 or a `RET` at
`SP` = 0; the record says which and where, and no other machine state has changed (R200, R206, R207). -/
def Obligations.OnlyThreeFaults : Prop :=
  ∀ (s t : State) (f : FaultRecord), s.fault = none → step s = .next t → t.fault = some f →
    (∃ e, nextCall s = .step e) ∧ OnlyFault s t ∧
    (((∀ i, decodeWord (fetchWord s) ≠ .ok i) ∧ f = .decodeFailure (fetchWord s) s.pc) ∨
     ((∃ nnn, decodeWord (fetchWord s) = .ok (.call nnn)) ∧ s.sp.val = 16 ∧ f = .stackOverflow s.pc) ∨
     (decodeWord (fetchWord s) = .ok .ret ∧ s.sp.val = 0 ∧ f = .stackUnderflow s.pc))

/-- After a fault there is no `step` and no `tick`, the model's stop `halted` (log entry 9), and whatever
step does answer is a reset that clears `FAULT` (R205, D17). -/
def Obligations.OnlyResetLeavesAFault : Prop :=
  ∀ (s : State) (f : FaultRecord), s.fault = some f →
    (∀ e, nextCall s = .step e → step s = .fault (.halted f)) ∧
    (nextCall s = .tick → step s = .fault (.halted f)) ∧
    (∀ t, step s = .next t → (∃ image, nextCall s = .reset image) ∧ t.fault = none)

/-- The instruction word is the byte at `PC mod 4096` in bits 15:8 and the byte at `(PC + 1) mod 4096` in
bits 7:0, whatever the parity of `PC` (R43). -/
def Obligations.FetchIsBigEndian : Prop :=
  ∀ s : State, (fetchWord s).toNat =
    (s.mem.lookup s.font (s.pc.toNat % 4096)).toNat * 256 +
      (s.mem.lookup s.font ((s.pc.toNat + 1) % 4096)).toNat

/-- The fetch depends on `PC` only through `PC mod 4096` (R16). -/
def Obligations.FetchDependsOnPcModulo4096 : Prop :=
  ∀ (s : State) (p : Word), p.toNat % 4096 = s.pc.toNat % 4096 → fetchWord { s with pc := p } = fetchWord s

/-- A store is seen by the next fetch: after `LD B,Vx` or `LD [I],Vx` each half of the word fetched next is the
byte just stored where the store covers it, be it both halves or one, and the byte memory held before where it
does not (R46, R52; the spec's decision D27). -/
def Obligations.StoreIsSeenByTheNextFetch : Prop :=
  (∀ (x : Nibble) (s : State), ∃ t, exec (.ldB x) s = .next t ∧ t.pc = s.pc + 2 ∧
    FetchSees [BitVec.ofNat 8 ((readV s x).toNat / 100), BitVec.ofNat 8 ((readV s x).toNat / 10 % 10),
      BitVec.ofNat 8 ((readV s x).toNat % 10)] s t) ∧
  (∀ (x : Nibble) (s : State), ∃ t, exec (.storeRegs x) s = .next t ∧ t.pc = s.pc + 2 ∧
    FetchSees ((List.range (x.toNat + 1)).map fun k => readV s (BitVec.ofNat 4 k)) s t)

/-! ## The timers -/

/-- A `tick` call takes one from each timer that is not 0, and touches nothing else (R215). -/
def Obligations.TickDecrementsTimers : Prop :=
  ∀ s : State, nextCall s = .tick → s.fault = none →
    ∃ t, step s = .next t ∧ t.dt.toNat = s.dt.toNat - 1 ∧ t.st.toNat = s.st.toNat - 1 ∧
      t.reply = .nothing ∧ VKept [] s t ∧ t.i = s.i ∧ t.pc = s.pc ∧ MemKept s t ∧ StackKept s t ∧
      ScreenKept s t ∧ t.fault = none ∧ t.font = s.font ∧ t.event = s.event ∧ t.draws = s.draws

/-- Any number of ticks in a row saturates both timers at 0 and leaves the program counter (R215, C10). -/
def Obligations.TicksSaturateAtZero : Prop :=
  ∀ (n : Nat) (s : State) (later : List HostCall), s.fault = none →
    s.calls = List.replicate n HostCall.tick ++ later →
    ∃ t, core.run n s = .next t ∧ t.dt.toNat = s.dt.toNat - n ∧ t.st.toNat = s.st.toNat - n ∧
      t.pc = s.pc ∧ t.calls = later

/-- The three timer moves copy a byte and nothing else (R152, R153, R154). -/
def Obligations.TimerMoves : Prop :=
  (∀ (x : Nibble) (s : State), ∃ t, exec (.ldVxDt x) s = .next t ∧ readV t x = s.dt ∧
    t.pc = s.pc + 2 ∧ t.reply = .outcome .none ∧ OnlyV [x] s t) ∧
  (∀ (x : Nibble) (s : State), ∃ t, exec (.ldDtVx x) s = .next t ∧ t.dt = readV s x ∧ t.st = s.st ∧
    t.pc = s.pc + 2 ∧ t.reply = .outcome .none ∧ VKept [] s t ∧ t.i = s.i ∧ MemKept s t ∧
    StackKept s t ∧ ScreenKept s t ∧ HostKept s t) ∧
  (∀ (x : Nibble) (s : State), ∃ t, exec (.ldStVx x) s = .next t ∧ t.st = readV s x ∧ t.dt = s.dt ∧
    t.pc = s.pc + 2 ∧ t.reply = .outcome .none ∧ VKept [] s t ∧ t.i = s.i ∧ MemKept s t ∧
    StackKept s t ∧ ScreenKept s t ∧ HostKept s t)

/-! ## Screen and flow -/

/-- `CLS` puts out every pixel, returns `Redraw` of the blank grid and changes nothing else (R100). -/
def Obligations.ClearScreen : Prop :=
  ∀ s : State, ∃ t, exec .cls s = .next t ∧ (∀ r c, pixel t.fb r c = false) ∧ t.pc = s.pc + 2 ∧
    t.reply = .outcome (.redraw t.fb) ∧ VKept [] s t ∧ t.i = s.i ∧ MemKept s t ∧ StackKept s t ∧
    TimersKept s t ∧ HostKept s t

/-- `RET` with a saved address takes the top of the stack whole into `PC` and counts it off; the entries
keep their values (R101, R19). -/
def Obligations.ReturnPopsTheTop : Prop :=
  ∀ (s : State) (k : Nat) (h : k < 16), s.sp.val = k + 1 →
    ∃ t, exec .ret s = .next t ∧ t.pc = s.stack[k] ∧ t.sp.val = k ∧
      (∀ j : Fin 16, t.stack[j.val] = s.stack[j.val]) ∧ t.reply = .outcome .none ∧ VKept [] s t ∧
      t.i = s.i ∧ MemKept s t ∧ TimersKept s t ∧ ScreenKept s t ∧ HostKept s t

/-- `JP nnn` goes to the 12-bit address and changes nothing else (R102). -/
def Obligations.JumpAbsolute : Prop :=
  ∀ (nnn : Addr12) (s : State), ∃ t, exec (.jp nnn) s = .next t ∧ t.pc.toNat = nnn.toNat ∧
    t.reply = .outcome .none ∧ OnlyV [] s t

/-- `CALL nnn` with room saves `npc` at `STACK[SP]`, counts it and jumps; no other entry changes (R103,
R19). -/
def Obligations.CallPushesTheReturnAddress : Prop :=
  ∀ (nnn : Addr12) (s : State) (h : s.sp.val < 16),
    ∃ t, exec (.call nnn) s = .next t ∧ t.pc.toNat = nnn.toNat ∧ t.stack[s.sp.val] = s.pc + 2 ∧
      t.sp.val = s.sp.val + 1 ∧ (∀ j : Fin 16, j.val ≠ s.sp.val → t.stack[j.val] = s.stack[j.val]) ∧
      t.reply = .outcome .none ∧ VKept [] s t ∧ t.i = s.i ∧ MemKept s t ∧ TimersKept s t ∧
      ScreenKept s t ∧ HostKept s t

/-- "CALL then RET restores program_counter to the instruction immediately following the original CALL",
and the stack is as deep as before; between the two, the code of the subroutine may change anything but the
stack and its depth (R101, R103). -/
def Obligations.CallThenRetReturns : Prop :=
  ∀ (nnn : Addr12) (s : State), s.sp.val < 16 →
    ∃ t, exec (.call nnn) s = .next t ∧ ∀ u, StackKept t u →
      ∃ v, exec .ret u = .next v ∧ v.pc = s.pc + 2 ∧ v.sp = s.sp ∧ VKept [] u v ∧ MemKept u v

/-- The four compare-and-skip instructions step over exactly one instruction when the comparison holds, and
change nothing but `PC` (R104 to R107). -/
def Obligations.CompareAndSkip : Prop :=
  (∀ (x : Nibble) (kk : Byte) (s : State), ∃ t, exec (.seImm x kk) s = .next t ∧
    t.pc = (if readV s x = kk then s.pc + 4 else s.pc + 2) ∧ t.reply = .outcome .none ∧ OnlyV [] s t) ∧
  (∀ (x : Nibble) (kk : Byte) (s : State), ∃ t, exec (.sneImm x kk) s = .next t ∧
    t.pc = (if readV s x = kk then s.pc + 2 else s.pc + 4) ∧ t.reply = .outcome .none ∧ OnlyV [] s t) ∧
  (∀ (x y : Nibble) (s : State), ∃ t, exec (.seReg x y) s = .next t ∧
    t.pc = (if readV s x = readV s y then s.pc + 4 else s.pc + 2) ∧ t.reply = .outcome .none ∧
    OnlyV [] s t) ∧
  (∀ (x y : Nibble) (s : State), ∃ t, exec (.sneReg x y) s = .next t ∧
    t.pc = (if readV s x = readV s y then s.pc + 2 else s.pc + 4) ∧ t.reply = .outcome .none ∧
    OnlyV [] s t)

/-! ## Immediate moves and the ALU -/

/-- `LD Vx,kk` loads the byte, `VF` included when it is the destination (R110). -/
def Obligations.LoadImmediate : Prop :=
  ∀ (x : Nibble) (kk : Byte) (s : State), ∃ t, exec (.ldImm x kk) s = .next t ∧ readV t x = kk ∧
    t.pc = s.pc + 2 ∧ t.reply = .outcome .none ∧ OnlyV [x] s t

/-- `ADD Vx,kk` adds modulo 256 and writes no flag (R111). -/
def Obligations.AddImmediate : Prop :=
  ∀ (x : Nibble) (kk : Byte) (s : State), ∃ t, exec (.addImm x kk) s = .next t ∧
    (readV t x).toNat = ((readV s x).toNat + kk.toNat) % 256 ∧
    t.pc = s.pc + 2 ∧ t.reply = .outcome .none ∧ OnlyV [x] s t

/-- Copy, `OR`, `AND` and `XOR` give the bitwise result and write no flag (R112 to R116; that they write no
flag is the spec's decision D7). -/
def Obligations.CopyAndLogic : Prop :=
  (∀ (x y : Nibble) (s : State), ∃ t, exec (.ldReg x y) s = .next t ∧ readV t x = readV s y ∧
    t.pc = s.pc + 2 ∧ t.reply = .outcome .none ∧ OnlyV [x] s t) ∧
  (∀ (x y : Nibble) (s : State), ∃ t, exec (.orReg x y) s = .next t ∧
    (∀ b < 8, (readV t x).getLsbD b = ((readV s x).getLsbD b || (readV s y).getLsbD b)) ∧
    t.pc = s.pc + 2 ∧ t.reply = .outcome .none ∧ OnlyV [x] s t) ∧
  (∀ (x y : Nibble) (s : State), ∃ t, exec (.andReg x y) s = .next t ∧
    (∀ b < 8, (readV t x).getLsbD b = ((readV s x).getLsbD b && (readV s y).getLsbD b)) ∧
    t.pc = s.pc + 2 ∧ t.reply = .outcome .none ∧ OnlyV [x] s t) ∧
  (∀ (x y : Nibble) (s : State), ∃ t, exec (.xorReg x y) s = .next t ∧
    (∀ b < 8, (readV t x).getLsbD b = ((readV s x).getLsbD b ^^ (readV s y).getLsbD b)) ∧
    t.pc = s.pc + 2 ∧ t.reply = .outcome .none ∧ OnlyV [x] s t)

/-- `ADD Vx,Vy`: the sum modulo 256, then the carry in `VF`; with `x` = 15 the flag is what stays (R117,
R123, D9). -/
def Obligations.AddWithCarry : Prop :=
  ∀ (x y : Nibble) (s : State), ∃ t, exec (.addReg x y) s = .next t ∧
    (x ≠ 0xF#4 → (readV t x).toNat = ((readV s x).toNat + (readV s y).toNat) % 256) ∧
    readV t 0xF#4 = (if (readV s x).toNat + (readV s y).toNat > 255 then 1 else 0) ∧
    t.pc = s.pc + 2 ∧ t.reply = .outcome .none ∧ OnlyV [x, 0xF#4] s t

/-- `SUB` and `SUBN`: the difference modulo 256, then 1 in `VF` exactly when the value subtracted from is
strictly greater, 0 at equality (R118, R120, R123; the flag at equality is the spec's choice C1, D23). -/
def Obligations.SubtractBothWays : Prop :=
  (∀ (x y : Nibble) (s : State), ∃ t, exec (.sub x y) s = .next t ∧
    (x ≠ 0xF#4 → (readV t x).toNat = ((readV s x).toNat + 256 - (readV s y).toNat) % 256) ∧
    readV t 0xF#4 = (if (readV s x).toNat > (readV s y).toNat then 1 else 0) ∧
    t.pc = s.pc + 2 ∧ t.reply = .outcome .none ∧ OnlyV [x, 0xF#4] s t) ∧
  (∀ (x y : Nibble) (s : State), ∃ t, exec (.subn x y) s = .next t ∧
    (x ≠ 0xF#4 → (readV t x).toNat = ((readV s y).toNat + 256 - (readV s x).toNat) % 256) ∧
    readV t 0xF#4 = (if (readV s y).toNat > (readV s x).toNat then 1 else 0) ∧
    t.pc = s.pc + 2 ∧ t.reply = .outcome .none ∧ OnlyV [x, 0xF#4] s t)

/-- `SHR` and `SHL` shift `V[x]` by one, then put the bit shifted out in `VF`; the field `y` changes nothing
(R119, R121, R123; that `V[x]` is shifted is the spec's choice D8). -/
def Obligations.ShiftByOne : Prop :=
  (∀ (x y : Nibble) (s : State), ∃ t, exec (.shr x y) s = .next t ∧
    (x ≠ 0xF#4 → (readV t x).toNat = (readV s x).toNat / 2) ∧
    (readV t 0xF#4).toNat = (readV s x).toNat % 2 ∧
    t.pc = s.pc + 2 ∧ t.reply = .outcome .none ∧ OnlyV [x, 0xF#4] s t) ∧
  (∀ (x y : Nibble) (s : State), ∃ t, exec (.shl x y) s = .next t ∧
    (x ≠ 0xF#4 → (readV t x).toNat = (2 * (readV s x).toNat) % 256) ∧
    (readV t 0xF#4).toNat = (readV s x).toNat / 128 ∧
    t.pc = s.pc + 2 ∧ t.reply = .outcome .none ∧ OnlyV [x, 0xF#4] s t)

/-! ## Index, computed jump, random -/

/-- The three instructions that write `I`: the 12-bit immediate, the 16-bit wraparound sum without a flag,
and five times the low nibble (R130, R160, R161). -/
def Obligations.IndexRegisterWrites : Prop :=
  (∀ (nnn : Addr12) (s : State), ∃ t, exec (.ldI nnn) s = .next t ∧ t.i.toNat = nnn.toNat ∧
    t.pc = s.pc + 2 ∧ t.reply = .outcome .none ∧ VKept [] s t ∧ MemKept s t ∧ StackKept s t ∧
    TimersKept s t ∧ ScreenKept s t ∧ HostKept s t) ∧
  (∀ (x : Nibble) (s : State), ∃ t, exec (.addI x) s = .next t ∧
    t.i.toNat = (s.i.toNat + (readV s x).toNat) % 65536 ∧
    t.pc = s.pc + 2 ∧ t.reply = .outcome .none ∧ VKept [] s t ∧ MemKept s t ∧ StackKept s t ∧
    TimersKept s t ∧ ScreenKept s t ∧ HostKept s t) ∧
  (∀ (x : Nibble) (s : State), ∃ t, exec (.ldF x) s = .next t ∧
    t.i.toNat = 5 * ((readV s x).toNat % 16) ∧
    t.pc = s.pc + 2 ∧ t.reply = .outcome .none ∧ VKept [] s t ∧ MemKept s t ∧ StackKept s t ∧
    TimersKept s t ∧ ScreenKept s t ∧ HostKept s t)

/-- `JP V0,nnn` goes to the sum, which is not reduced to 12 bits (R131). -/
def Obligations.JumpWithOffset : Prop :=
  ∀ (nnn : Addr12) (s : State), ∃ t, exec (.jpV0 nnn) s = .next t ∧
    t.pc.toNat = nnn.toNat + (readV s 0x0#4).toNat ∧ t.reply = .outcome .none ∧ OnlyV [] s t

/-- `RND Vx,kk` puts a byte drawn afresh under the mask, so every bit where `kk` has a 0 is 0, and leaves all
else; the byte is any byte (R132, D21; log entry 3). -/
def Obligations.RandomUnderMask : Prop :=
  ∀ (x : Nibble) (kk : Byte) (s : State), ∃ t, exec (.rnd x kk) s = .next t ∧
    readV t x = Config.rand s.draws &&& kk ∧ t.draws = s.draws + 1 ∧
    t.pc = s.pc + 2 ∧ t.reply = .outcome .none ∧ VKept [x] s t ∧ t.i = s.i ∧ MemKept s t ∧
    StackKept s t ∧ TimersKept s t ∧ ScreenKept s t ∧ t.fault = s.fault ∧ t.font = s.font ∧
    t.event = s.event ∧ t.calls = s.calls ∧ t.callsDrawn = s.callsDrawn

/-! ## Draw -/

/-- Where a sprite bit lands and what it does: bit `7 - col` of the byte at `I + row` flips the pixel in row
`(V[y] + row) mod 32` and column `(V[x] + col) mod 64`; no two bits share a pixel and no other pixel changes
(R141). -/
def Obligations.DrawFlipsTheSpritePixels : Prop :=
  ∀ (x y n : Nibble) (s : State), ∃ t, exec (.drw x y n) s = .next t ∧
    (∀ (r : Fin 32) (c : Fin 64) (row col : Nat), row < n.toNat → col < 8 →
      r.val = ((readV s y).toNat + row) % 32 → c.val = ((readV s x).toNat + col) % 64 →
      pixel t.fb r c =
        (pixel s.fb r c ^^ (readByte s (s.i + BitVec.ofNat 16 row)).getLsbD (7 - col))) ∧
    (∀ row col row' col' : Nat, row < n.toNat → col < 8 → row' < n.toNat → col' < 8 →
      ((readV s y).toNat + row) % 32 = ((readV s y).toNat + row') % 32 →
      ((readV s x).toNat + col) % 64 = ((readV s x).toNat + col') % 64 → row = row' ∧ col = col') ∧
    (∀ (r : Fin 32) (c : Fin 64), (∀ row col : Nat, row < n.toNat → col < 8 →
        ¬ (r.val = ((readV s y).toNat + row) % 32 ∧ c.val = ((readV s x).toNat + col) % 64)) →
      pixel t.fb r c = pixel s.fb r c)

/-- The collision detector: each sprite bit makes its pixel `old ^ bit`, and `VF` is 1 exactly when some
sprite bit was 1 and landed on a pixel that was lit before the instruction began, 0 otherwise, whatever `VF`
held (R142). -/
def Obligations.DrawSetsTheCollisionFlag : Prop :=
  ∀ (x y n : Nibble) (s : State), ∃ t, exec (.drw x y n) s = .next t ∧
    (∀ (r : Fin 32) (c : Fin 64) (row col : Nat), row < n.toNat → col < 8 →
      r.val = ((readV s y).toNat + row) % 32 → c.val = ((readV s x).toNat + col) % 64 →
      pixel t.fb r c =
        (pixel s.fb r c ^^ (readByte s (s.i + BitVec.ofNat 16 row)).getLsbD (7 - col))) ∧
    (readV t 0xF#4 = 1 ∨ readV t 0xF#4 = 0) ∧
    (readV t 0xF#4 = 1 ↔
      ∃ (row col : Nat) (r : Fin 32) (c : Fin 64), row < n.toNat ∧ col < 8 ∧
        r.val = ((readV s y).toNat + row) % 32 ∧ c.val = ((readV s x).toNat + col) % 64 ∧
        (readByte s (s.i + BitVec.ofNat 16 row)).getLsbD (7 - col) = true ∧ pixel s.fb r c = true)

/-- `DRW` always returns `Redraw` of the framebuffer as it is after the last bit (R145), and changes nothing
but pixels, `VF` and `PC`. -/
def Obligations.DrawAlwaysRedraws : Prop :=
  ∀ (x y n : Nibble) (s : State), ∃ t, exec (.drw x y n) s = .next t ∧
    t.reply = .outcome (.redraw t.fb) ∧ t.pc = s.pc + 2 ∧ VKept [0xF#4] s t ∧ t.i = s.i ∧ MemKept s t ∧
    StackKept s t ∧ TimersKept s t ∧ HostKept s t

/-- Drawing the same sprite twice at the same place restores the framebuffer exactly; when the first draw
fell on unlit pixels only, the second gives `VF` = 1 exactly when the sprite has a 1 bit (R144). The
coordinate registers are not `VF`, which the first draw overwrites. -/
def Obligations.DrawTwiceRestores : Prop :=
  ∀ (x y n : Nibble) (s : State), x ≠ 0xF#4 → y ≠ 0xF#4 →
    ∃ t u, exec (.drw x y n) s = .next t ∧ exec (.drw x y n) t = .next u ∧ ScreenKept s u ∧
      ((∀ (row col : Nat) (r : Fin 32) (c : Fin 64), row < n.toNat → col < 8 →
          r.val = ((readV s y).toNat + row) % 32 → c.val = ((readV s x).toNat + col) % 64 →
          pixel s.fb r c = false) →
        (readV u 0xF#4 = 1 ↔ ∃ row col : Nat, row < n.toNat ∧ col < 8 ∧
          (readByte s (s.i + BitVec.ofNat 16 row)).getLsbD (7 - col) = true))

/-! ## Keys -/

/-- `SKP` skips exactly when the event of this step is `KeyPress` of the low nibble of `V[x]`, `SKNP` exactly
when it is not; so with no key held, `KeyResolved` included, `SKP` never skips and `SKNP` always (R150, R151;
the reading of `None` and `KeyResolved` is the spec's choice D10). -/
def Obligations.SkipOnKey : Prop :=
  (∀ (x : Nibble) (s : State), ∃ t, exec (.skp x) s = .next t ∧
    ((∃ k, s.event = .keyPress k ∧ k.toNat = (readV s x).toNat % 16) → t.pc = s.pc + 4) ∧
    ((¬ ∃ k, s.event = .keyPress k ∧ k.toNat = (readV s x).toNat % 16) → t.pc = s.pc + 2) ∧
    t.reply = .outcome .none ∧ OnlyV [] s t) ∧
  (∀ (x : Nibble) (s : State), ∃ t, exec (.sknp x) s = .next t ∧
    ((∃ k, s.event = .keyPress k ∧ k.toNat = (readV s x).toNat % 16) → t.pc = s.pc + 2) ∧
    ((¬ ∃ k, s.event = .keyPress k ∧ k.toNat = (readV s x).toNat % 16) → t.pc = s.pc + 4) ∧
    t.reply = .outcome .none ∧ OnlyV [] s t)

/-- `LD Vx,K` in a step given `KeyResolved(k)` stores the key, whatever came before, and goes on (R170,
R171). -/
def Obligations.AwaitKeyResolves : Prop :=
  ∀ (x k : Nibble) (s : State), s.event = .keyResolved k →
    ∃ t, exec (.ldK x) s = .next t ∧ (readV t x).toNat = k.toNat ∧ t.pc = s.pc + 2 ∧
      t.reply = .outcome .none ∧ OnlyV [x] s t

/-- `LD Vx,K` in a step given any other event, `KeyPress` included, changes no machine state, `PC` included,
and returns `AwaitKey` (R170, R172; that `KeyPress` does not resolve is the spec's choice D11). -/
def Obligations.AwaitKeyWaits : Prop :=
  ∀ (x : Nibble) (s : State), (∀ k, s.event ≠ .keyResolved k) →
    ∃ t, exec (.ldK x) s = .next t ∧ t.pc = s.pc ∧ t.reply = .outcome .awaitKey ∧ OnlyV [] s t

/-! ## Index memory -/

/-- `LD B,Vx` stores the decimal digits of `V[x]`, hundreds, tens, ones, at `I`, `I + 1`, `I + 2`, each
through the translator, and changes nothing else (R162). -/
def Obligations.StoreDecimalDigits : Prop :=
  ∀ (x : Nibble) (s : State), ∃ t, exec (.ldB x) s = .next t ∧
    (readByte t s.i).toNat = (readV s x).toNat / 100 ∧
    (readByte t (s.i + 1)).toNat = (readV s x).toNat / 10 % 10 ∧
    (readByte t (s.i + 2)).toNat = (readV s x).toNat % 10 ∧
    MemKeptOutside s.i 3 s t ∧ t.pc = s.pc + 2 ∧ t.reply = .outcome .none ∧ VKept [] s t ∧
    t.i = s.i ∧ StackKept s t ∧ TimersKept s t ∧ ScreenKept s t ∧ HostKept s t

/-- `LD [I],Vx` stores `V[0]` to `V[x]`, `x` itself included, from `I` up, each address through the
translator; `I` and every other byte stay (R163). -/
def Obligations.BulkStore : Prop :=
  ∀ (x : Nibble) (s : State), ∃ t, exec (.storeRegs x) s = .next t ∧
    (∀ k : Nibble, k.toNat ≤ x.toNat → readByte t (s.i + BitVec.ofNat 16 k.toNat) = readV s k) ∧
    MemKeptOutside s.i (x.toNat + 1) s t ∧ t.pc = s.pc + 2 ∧ t.reply = .outcome .none ∧ VKept [] s t ∧
    t.i = s.i ∧ StackKept s t ∧ TimersKept s t ∧ ScreenKept s t ∧ HostKept s t

/-- `LD Vx,[I]` loads `V[0]` to `V[x]`, `x` itself included, from `I` up; `I`, the other registers and memory
stay (R164). -/
def Obligations.BulkLoad : Prop :=
  ∀ (x : Nibble) (s : State), ∃ t, exec (.loadRegs x) s = .next t ∧
    (∀ k : Nibble, readV t k =
      if k.toNat ≤ x.toNat then readByte s (s.i + BitVec.ofNat 16 k.toNat) else readV s k) ∧
    t.pc = s.pc + 2 ∧ t.reply = .outcome .none ∧ t.i = s.i ∧ MemKept s t ∧ StackKept s t ∧
    TimersKept s t ∧ ScreenKept s t ∧ HostKept s t

/-- A bulk store and later a bulk load with the same `x` and the same `I`, with nothing between that writes
those bytes, give the stored registers back (R165). -/
def Obligations.StoreThenLoadRestores : Prop :=
  ∀ (x : Nibble) (s : State), ∃ t, exec (.storeRegs x) s = .next t ∧
    ∀ u, u.i = t.i →
      (∀ k : Nibble, k.toNat ≤ x.toNat →
        readByte u (t.i + BitVec.ofNat 16 k.toNat) = readByte t (t.i + BitVec.ofNat 16 k.toNat)) →
      ∃ v, exec (.loadRegs x) u = .next v ∧ v.i = s.i ∧
        ∀ k : Nibble, k.toNat ≤ x.toNat → readV v k = readV s k

/-! ## The whole machine -/

/-- How every instruction leaves `PC`, and that a step which faults leaves it unchanged (R15). The conditions
of the skips are those of R104 to R107, R150 and R151, the wait that of R170; that only `KeyPress` holds a key
is the spec's decision D10, that only `KeyResolved` ends a wait its D11, `PC` after a fault its D17. -/
def Obligations.ProgramCounterAfterEachInstruction : Prop :=
  (∀ (i : Instr) (s : State), ∃ t, exec i s = .next t ∧ t.pc = pcAfter i s) ∧
  (∀ (s t : State) (f : FaultRecord), s.fault = none → step s = .next t → t.fault = some f → t.pc = s.pc)

/-- Which instruction gives which outcome (R31); a faulting `CALL` or `RET` returns its fault. -/
def Obligations.OutcomeOfEachInstruction : Prop :=
  ∀ (i : Instr) (s : State), ∃ t, exec i s = .next t ∧ t.reply = replyAfter i s t

/-- No instruction writes a general register outside its row of R11. -/
def Obligations.RegistersWrittenAreThoseOfTheTable : Prop :=
  ∀ (i : Instr) (s t : State), exec i s = .next t → VKept (writesV i) s t

/-- Each of the six instructions that write `VF` as a flag leaves it 0 or 1 (R12). -/
def Obligations.FlagIsZeroOrOne : Prop :=
  ∀ (x y n : Nibble) (s t : State) (i : Instr),
    i ∈ [Instr.addReg x y, .sub x y, .subn x y, .shr x y, .shl x y, .drw x y n] →
    exec i s = .next t → readV t 0xF#4 = 0 ∨ readV t 0xF#4 = 1

/-- `I` is written by `LD I,nnn`, `ADD I,Vx` and `LD F,Vx` only (R13). -/
def Obligations.IndexRegisterWrittenByThree : Prop :=
  ∀ (i : Instr) (s t : State), (∀ nnn, i ≠ .ldI nnn) → (∀ x, i ≠ .addI x) → (∀ x, i ≠ .ldF x) →
    exec i s = .next t → t.i = s.i

/-- `DT` is written by `LD DT,Vx` only and `ST` by `LD ST,Vx` only: an instruction never counts them down
(R20). -/
def Obligations.TimersWrittenByTwo : Prop :=
  ∀ (i : Instr) (s t : State), exec i s = .next t →
    ((∀ x, i ≠ .ldDtVx x) → t.dt = s.dt) ∧ ((∀ x, i ≠ .ldStVx x) → t.st = s.st)

/-- "no instruction reads `ST`": two states that differ in `ST` only end differing in `ST` only (R20). -/
def Obligations.SoundTimerIsNeverRead : Prop :=
  ∀ (i : Instr) (s t : State) (b : Byte), exec i s = .next t →
    ∃ c, exec i { s with st := b } = .next { t with st := c }

/-- Memory is written by `LD B,Vx` and `LD [I],Vx` only (R17, R46). -/
def Obligations.MemoryWrittenByTwo : Prop :=
  ∀ (i : Instr) (s t : State), (∀ x, i ≠ .ldB x) → (∀ x, i ≠ .storeRegs x) →
    exec i s = .next t → MemKept s t

/-- The framebuffer is written by `CLS` and `DRW` only (R25). -/
def Obligations.ScreenWrittenByTwo : Prop :=
  ∀ (i : Instr) (s t : State), i ≠ .cls → (∀ x y n, i ≠ .drw x y n) →
    exec i s = .next t → ScreenKept s t

/-- The stack and `SP` are changed by `CALL` and `RET` only (R18, R19). -/
def Obligations.StackChangedByCallAndRet : Prop :=
  ∀ (i : Instr) (s t : State), (∀ nnn, i ≠ .call nnn) → i ≠ .ret →
    exec i s = .next t → StackKept s t

/-- The event matters only to `SKP`, `SKNP` and `LD Vx,K` (R29, R71). -/
def Obligations.EventReadByThree : Prop :=
  ∀ (i : Instr) (s t : State) (e : Event), (∀ x, i ≠ .skp x) → (∀ x, i ≠ .sknp x) → (∀ x, i ≠ .ldK x) →
    exec i s = .next t → exec i { s with event := e } = .next { t with event := e }

/-- Only `RND` draws from the random source, and one byte each time (R27, R71, R132); the count of draws is
the model's (log entry 3). -/
def Obligations.OnlyRandomDraws : Prop :=
  ∀ (i : Instr) (s t : State), exec i s = .next t →
    ((∀ x kk, i ≠ .rnd x kk) → t.draws = s.draws) ∧
    ((∃ x kk, i = .rnd x kk) → t.draws = s.draws + 1)

/-- From a state at rest a step, with any event, returns `None` and changes no machine state (R246, the
spec's definition D20). -/
def Obligations.AtRestStaysAtRest : Prop :=
  ∀ (s : State) (e : Event), AtRest s → nextCall s = .step e →
    ∃ t, step s = .next t ∧ t.reply = .outcome .none ∧ OnlyFault s t ∧ t.fault = none ∧ AtRest t

/-- Every transition keeps the invariant, from every state that meets it: the list that holds memory stays in
canonical form, and what the step returned agrees with the state (R30, R204). The canonical form, from which
the 4096 bytes of R34 follow, is the model's choice (log entry 16), and so is the field that holds what the
step returned (log entry 8). -/
def Obligations.StepKeepsTheInvariant : Prop :=
  ∀ s t : State, invariant s = true → step s = .next t → invariant t = true

/-- The invariant holds right after reset, for every font table. The canonical form of memory and the field that
holds what the step returned are the model's choices (log entries 16 and 8). -/
def Obligations.InvariantAtReset : Prop := ∀ font : Font, invariant (State.resetWith font) = true

/-- The font table is "fixed", "not configurable": no transition changes it, a reset included (R5, R27). That
the state holds it is the model's choice (log entry 17). -/
def Obligations.FontTableNeverChanges : Prop := ∀ s t : State, step s = .next t → t.font = s.font
end

