-- ==== Sys2Proof/Laws/Decode.lean ====
section
/-!
SUPPORT. The fields of a word as numbers, and the fields of the words the encoder builds, format by format
(30_encoding R61, R62).
-/

namespace Sys2Proof

theorem toNat_append_add {m n : Nat} (a : BitVec m) (b : BitVec n) :
    (a ++ b).toNat = a.toNat * 2 ^ n + b.toNat := by
  have h := Nat.two_pow_add_eq_or_of_lt b.isLt a.toNat
  rw [BitVec.toNat_append, Nat.shiftLeft_eq, Nat.mul_comm, ← h]

theorem opOf_toNat (w : Word) : (opOf w).toNat = w.toNat / 4096 := by
  unfold opOf; simp [BitVec.extractLsb'_toNat, Nat.shiftRight_eq_div_pow]; omega

theorem xOf_toNat (w : Word) : (xOf w).toNat = w.toNat / 256 % 16 := by
  unfold xOf; simp [BitVec.extractLsb'_toNat, Nat.shiftRight_eq_div_pow]

theorem yOf_toNat (w : Word) : (yOf w).toNat = w.toNat / 16 % 16 := by
  unfold yOf; simp [BitVec.extractLsb'_toNat, Nat.shiftRight_eq_div_pow]

theorem nOf_toNat (w : Word) : (nOf w).toNat = w.toNat % 16 := by
  unfold nOf; simp [BitVec.extractLsb'_toNat, Nat.shiftRight_eq_div_pow]

theorem kkOf_toNat (w : Word) : (kkOf w).toNat = w.toNat % 256 := by
  unfold kkOf; simp [BitVec.extractLsb'_toNat, Nat.shiftRight_eq_div_pow]

theorem nnnOf_toNat (w : Word) : (nnnOf w).toNat = w.toNat % 4096 := by
  unfold nnnOf; simp [BitVec.extractLsb'_toNat, Nat.shiftRight_eq_div_pow]

/-- Format A: `op`, `nnn`. -/
theorem toNat_formatA (op : Nibble) (nnn : Addr12) :
    BitVec.toNat (w := 16) (op ++ nnn) = op.toNat * 4096 + nnn.toNat := toNat_append_add op nnn

/-- Formats XK and X: `op`, `x`, `kk`. -/
theorem toNat_formatXK (op x : Nibble) (kk : Byte) :
    BitVec.toNat (w := 16) (op ++ x ++ kk) = op.toNat * 4096 + x.toNat * 256 + kk.toNat := by
  have h := toNat_append_add (op ++ x) kk
  rw [toNat_append_add op x] at h
  refine h.trans ?_
  ring

/-- Formats XY and XYN: `op`, `x`, `y`, `n`. -/
theorem toNat_formatXYN (op x y n : Nibble) :
    BitVec.toNat (w := 16) (op ++ x ++ y ++ n) =
      op.toNat * 4096 + x.toNat * 256 + y.toNat * 16 + n.toNat := by
  have h := toNat_append_add (op ++ x ++ y) n
  rw [toNat_append_add (op ++ x) y, toNat_append_add op x] at h
  refine h.trans ?_
  ring

variable (op x y n : Nibble) (kk : Byte) (nnn : Addr12)

@[simp] theorem opOf_formatA : opOf (op ++ nnn) = op := by
  apply BitVec.eq_of_toNat_eq; rw [opOf_toNat, toNat_formatA]; omega
@[simp] theorem nnnOf_formatA : nnnOf (op ++ nnn) = nnn := by
  apply BitVec.eq_of_toNat_eq; rw [nnnOf_toNat, toNat_formatA]; omega
@[simp] theorem opOf_formatXK : opOf (op ++ x ++ kk) = op := by
  apply BitVec.eq_of_toNat_eq; rw [opOf_toNat, toNat_formatXK]; omega
@[simp] theorem xOf_formatXK : xOf (op ++ x ++ kk) = x := by
  apply BitVec.eq_of_toNat_eq; rw [xOf_toNat, toNat_formatXK]; omega
@[simp] theorem kkOf_formatXK : kkOf (op ++ x ++ kk) = kk := by
  apply BitVec.eq_of_toNat_eq; rw [kkOf_toNat, toNat_formatXK]; omega
@[simp] theorem opOf_formatXYN : opOf (op ++ x ++ y ++ n) = op := by
  apply BitVec.eq_of_toNat_eq; rw [opOf_toNat, toNat_formatXYN]; omega
@[simp] theorem xOf_formatXYN : xOf (op ++ x ++ y ++ n) = x := by
  apply BitVec.eq_of_toNat_eq; rw [xOf_toNat, toNat_formatXYN]; omega
@[simp] theorem yOf_formatXYN : yOf (op ++ x ++ y ++ n) = y := by
  apply BitVec.eq_of_toNat_eq; rw [yOf_toNat, toNat_formatXYN]; omega
@[simp] theorem nOf_formatXYN : nOf (op ++ x ++ y ++ n) = n := by
  apply BitVec.eq_of_toNat_eq; rw [nOf_toNat, toNat_formatXYN]; omega

/-- The two bytes of a word, joined again, are the word (20_memory R43). -/
@[simp] theorem joinBytes_bytes (w : Word) : joinBytes (highByte w) (lowByte w) = w := by
  apply BitVec.eq_of_toNat_eq
  unfold joinBytes
  rw [toNat_append_add]
  unfold highByte lowByte
  simp only [BitVec.extractLsb'_toNat, Nat.shiftRight_eq_div_pow]
  omega

end Sys2Proof
end

