-- ==== Sys2Proof/Laws/Memory.lean ====
section
/-!
SUPPORT. The laws of `MEM`: a read after a write, and that every operation keeps the canonical form.
-/

namespace Sys2Proof.Machine

variable {font : Font}

@[simp] theorem Memory.lookup_nil (a : Nat) : Memory.lookup font [] a = Memory.initial font a := rfl

theorem Memory.lookup_erase (m : Memory) (a b : Nat) :
    (m.erase a).lookup font b = if b = a then Memory.initial font a else m.lookup font b := by
  induction m with
  | nil => simp [Memory.erase, Memory.lookup]; rintro rfl; rfl
  | cons c m ih =>
    obtain ⟨d, u⟩ := c
    by_cases had : a = d
    · subst had
      simp only [Memory.erase, ↓reduceIte, ih, Memory.lookup]
      split <;> rfl
    · simp only [Memory.erase, had, ↓reduceIte, Memory.lookup, ih]
      split_ifs with h1 h2 <;> simp_all

theorem Memory.lookup_insert (m : Memory) (a b : Nat) (v : Byte) (h : m.erase a = m) :
    (m.insert a v).lookup font b = if b = a then v else m.lookup font b := by
  induction m with
  | nil => simp [Memory.insert, Memory.lookup]
  | cons c m ih =>
    obtain ⟨d, u⟩ := c
    have hlen : ∀ n : Memory, (n.erase a).length ≤ n.length := by
      intro n
      induction n with
      | nil => simp [Memory.erase]
      | cons e n ihn => obtain ⟨e1, e2⟩ := e; simp only [Memory.erase]; split <;> simp <;> omega
    have had : a ≠ d := by
      intro had
      have := congrArg List.length h
      have := hlen m
      simp [Memory.erase, had] at *
      omega
    simp only [Memory.erase, had, ↓reduceIte, List.cons.injEq, true_and] at h
    simp only [Memory.insert]
    split
    · simp only [Memory.lookup]
    · simp only [Memory.lookup, ih h]
      split_ifs with h1 h2 <;> simp_all

theorem Memory.erase_erase (m : Memory) (a : Nat) : (m.erase a).erase a = m.erase a := by
  induction m with
  | nil => rfl
  | cons c m ih =>
    obtain ⟨d, u⟩ := c
    by_cases had : a = d <;> simp [Memory.erase, had, ih]
    subst had; exact ih

/-- A read after a write: the written byte at the written address, the old byte elsewhere. -/
theorem Memory.lookup_store (m : Memory) (a b : Nat) (v : Byte) :
    (m.store font a v).lookup font b = if b = a then v else m.lookup font b := by
  unfold Memory.store
  split
  · next h => rw [Memory.lookup_erase, h]
  · rw [Memory.lookup_insert _ _ _ _ (Memory.erase_erase m a), Memory.lookup_erase]
    split <;> rfl

theorem Memory.wfFrom_mono {lo lo' : Nat} {m : Memory} (h : Memory.wfFrom font lo m = true) (hl : lo' ≤ lo) :
    Memory.wfFrom font lo' m = true := by
  cases m with
  | nil => rfl
  | cons c m =>
    obtain ⟨d, u⟩ := c
    simp only [Memory.wfFrom, Bool.and_eq_true, decide_eq_true_eq] at h ⊢
    exact ⟨⟨⟨by omega, h.1.1.2⟩, h.1.2⟩, h.2⟩

theorem Memory.wfFrom_erase {lo : Nat} {m : Memory} (a : Nat) (h : Memory.wfFrom font lo m = true) :
    Memory.wfFrom font lo (m.erase a) = true := by
  induction m generalizing lo with
  | nil => rfl
  | cons c m ih =>
    obtain ⟨d, u⟩ := c
    simp only [Memory.wfFrom, Bool.and_eq_true, decide_eq_true_eq] at h
    simp only [Memory.erase]
    split
    · exact Memory.wfFrom_mono (ih h.2) (by omega)
    · simp only [Memory.wfFrom, Bool.and_eq_true, decide_eq_true_eq]
      exact ⟨h.1, ih h.2⟩

theorem Memory.wfFrom_insert {lo : Nat} {m : Memory} {a : Nat} {v : Byte}
    (h : Memory.wfFrom font lo m = true) (hm : m.erase a = m) (hlo : lo ≤ a) (ha : a < 4096)
    (hv : v ≠ Memory.initial font a) : Memory.wfFrom font lo (m.insert a v) = true := by
  induction m generalizing lo with
  | nil => simp [Memory.insert, Memory.wfFrom, hlo, ha, hv]
  | cons c m ih =>
    obtain ⟨d, u⟩ := c
    simp only [Memory.wfFrom, Bool.and_eq_true, decide_eq_true_eq] at h
    by_cases hlt : a < d
    · simp only [Memory.insert, hlt, ↓reduceIte, Memory.wfFrom, Bool.and_eq_true, decide_eq_true_eq]
      exact ⟨⟨⟨hlo, ha⟩, hv⟩, ⟨⟨by omega, h.1.1.2⟩, h.1.2⟩, h.2⟩
    · have had : a ≠ d := by
        intro had
        have hl := congrArg (fun n => Memory.lookup font n a) hm
        simp only [Memory.lookup_erase, ↓reduceIte] at hl
        rw [had] at hl
        exact h.1.2 (by simpa [Memory.lookup] using hl.symm)
      simp only [Memory.erase, had, ↓reduceIte, List.cons.injEq, true_and] at hm
      simp only [Memory.insert, hlt, ↓reduceIte, Memory.wfFrom, Bool.and_eq_true, decide_eq_true_eq]
      exact ⟨h.1, ih h.2 hm (by omega)⟩

/-- A write below 4096 keeps the canonical form. -/
theorem Memory.wf_store {m : Memory} {a : Nat} (v : Byte) (h : m.wf font = true) (ha : a < 4096) :
    (m.store font a v).wf font = true := by
  unfold Memory.store
  split
  · exact Memory.wfFrom_erase a h
  · next hv =>
    exact Memory.wfFrom_insert (Memory.wfFrom_erase a h) (Memory.erase_erase m a) (Nat.zero_le a) ha hv

/-- Storing a list of bytes: byte `k` at `a + k`, the old byte elsewhere. -/
theorem Memory.lookup_storeList (vs : List Byte) (m : Memory) (a b : Nat) :
    (m.storeList font a vs).lookup font b =
      if a ≤ b ∧ b < a + vs.length then vs.getD (b - a) 0x00#8 else m.lookup font b := by
  induction vs generalizing m a with
  | nil => simp [Memory.storeList]
  | cons v vs ih =>
    rw [Memory.storeList, ih, Memory.lookup_store]
    by_cases hba : b = a
    · subst hba; simp
    · by_cases h : a ≤ b ∧ b < a + (v :: vs).length
      · have e : b - a = (b - (a + 1)) + 1 := by omega
        have h' : a + 1 ≤ b ∧ b < a + 1 + vs.length := by simp at h; omega
        rw [if_pos h, if_pos h', e, List.getD_cons_succ]
      · have h' : ¬ (a + 1 ≤ b ∧ b < a + 1 + vs.length) := by simp at h; omega
        rw [if_neg h, if_neg h', if_neg hba]

/-- Storing a list of bytes that ends below 4096 keeps the canonical form. -/
theorem Memory.wf_storeList (vs : List Byte) {m : Memory} {a : Nat} (h : m.wf font = true)
    (ha : a + vs.length ≤ 4096) : (m.storeList font a vs).wf font = true := by
  induction vs generalizing m a with
  | nil => exact h
  | cons v vs ih =>
    simp only [List.length_cons] at ha
    exact ih (Memory.wf_store v h (by omega)) (by omega)

/-- The translator gives a physical address (20_memory R40). -/
theorem physical_lt (a : Word) : physical a < 4096 := Nat.mod_lt _ (by decide)

/-- The translator of a sum: it does not matter that the sum is first brought to 16 bits (R40). -/
theorem physical_add (a : Word) (k : Nat) :
    physical (a + BitVec.ofNat 16 k) = (a.toNat + k) % 4096 := by
  unfold physical
  simp only [BitVec.toNat_add, BitVec.toNat_ofNat]
  omega

end Sys2Proof.Machine
end

