-- ==== Sys2Proof/Laws/State.lean ====
section
/-!
SUPPORT. The fields of a state after each update: one lemma per field per update, true by unfolding, and
the ways to leave an instruction in terms of `leave`.
-/

namespace Sys2Proof.Machine

variable (s : State)

/-! ### `writeV` -/

@[simp] theorem writeV_v (x : Nibble) (b : Byte) : (writeV s x b).v = s.v.set x.toNat b := rfl
@[simp] theorem writeV_i (x : Nibble) (b : Byte) : (writeV s x b).i = s.i := rfl
@[simp] theorem writeV_pc (x : Nibble) (b : Byte) : (writeV s x b).pc = s.pc := rfl
@[simp] theorem writeV_sp (x : Nibble) (b : Byte) : (writeV s x b).sp = s.sp := rfl
@[simp] theorem writeV_stack (x : Nibble) (b : Byte) : (writeV s x b).stack = s.stack := rfl
@[simp] theorem writeV_dt (x : Nibble) (b : Byte) : (writeV s x b).dt = s.dt := rfl
@[simp] theorem writeV_st (x : Nibble) (b : Byte) : (writeV s x b).st = s.st := rfl
@[simp] theorem writeV_mem (x : Nibble) (b : Byte) : (writeV s x b).mem = s.mem := rfl
@[simp] theorem writeV_fb (x : Nibble) (b : Byte) : (writeV s x b).fb = s.fb := rfl
@[simp] theorem writeV_fault (x : Nibble) (b : Byte) : (writeV s x b).fault = s.fault := rfl
@[simp] theorem writeV_font (x : Nibble) (b : Byte) : (writeV s x b).font = s.font := rfl
@[simp] theorem writeV_event (x : Nibble) (b : Byte) : (writeV s x b).event = s.event := rfl
@[simp] theorem writeV_reply (x : Nibble) (b : Byte) : (writeV s x b).reply = s.reply := rfl
@[simp] theorem writeV_calls (x : Nibble) (b : Byte) : (writeV s x b).calls = s.calls := rfl
@[simp] theorem writeV_callsDrawn (x : Nibble) (b : Byte) : (writeV s x b).callsDrawn = s.callsDrawn := rfl
@[simp] theorem writeV_draws (x : Nibble) (b : Byte) : (writeV s x b).draws = s.draws := rfl

/-! ### `writeI` -/

@[simp] theorem writeI_v (a : Word) : (writeI s a).v = s.v := rfl
@[simp] theorem writeI_i (a : Word) : (writeI s a).i = a := rfl
@[simp] theorem writeI_pc (a : Word) : (writeI s a).pc = s.pc := rfl
@[simp] theorem writeI_sp (a : Word) : (writeI s a).sp = s.sp := rfl
@[simp] theorem writeI_stack (a : Word) : (writeI s a).stack = s.stack := rfl
@[simp] theorem writeI_dt (a : Word) : (writeI s a).dt = s.dt := rfl
@[simp] theorem writeI_st (a : Word) : (writeI s a).st = s.st := rfl
@[simp] theorem writeI_mem (a : Word) : (writeI s a).mem = s.mem := rfl
@[simp] theorem writeI_fb (a : Word) : (writeI s a).fb = s.fb := rfl
@[simp] theorem writeI_fault (a : Word) : (writeI s a).fault = s.fault := rfl
@[simp] theorem writeI_font (a : Word) : (writeI s a).font = s.font := rfl
@[simp] theorem writeI_event (a : Word) : (writeI s a).event = s.event := rfl
@[simp] theorem writeI_reply (a : Word) : (writeI s a).reply = s.reply := rfl
@[simp] theorem writeI_calls (a : Word) : (writeI s a).calls = s.calls := rfl
@[simp] theorem writeI_callsDrawn (a : Word) : (writeI s a).callsDrawn = s.callsDrawn := rfl
@[simp] theorem writeI_draws (a : Word) : (writeI s a).draws = s.draws := rfl

/-! ### `writeDt` -/

@[simp] theorem writeDt_v (b : Byte) : (writeDt s b).v = s.v := rfl
@[simp] theorem writeDt_i (b : Byte) : (writeDt s b).i = s.i := rfl
@[simp] theorem writeDt_pc (b : Byte) : (writeDt s b).pc = s.pc := rfl
@[simp] theorem writeDt_sp (b : Byte) : (writeDt s b).sp = s.sp := rfl
@[simp] theorem writeDt_stack (b : Byte) : (writeDt s b).stack = s.stack := rfl
@[simp] theorem writeDt_dt (b : Byte) : (writeDt s b).dt = b := rfl
@[simp] theorem writeDt_st (b : Byte) : (writeDt s b).st = s.st := rfl
@[simp] theorem writeDt_mem (b : Byte) : (writeDt s b).mem = s.mem := rfl
@[simp] theorem writeDt_fb (b : Byte) : (writeDt s b).fb = s.fb := rfl
@[simp] theorem writeDt_fault (b : Byte) : (writeDt s b).fault = s.fault := rfl
@[simp] theorem writeDt_font (b : Byte) : (writeDt s b).font = s.font := rfl
@[simp] theorem writeDt_event (b : Byte) : (writeDt s b).event = s.event := rfl
@[simp] theorem writeDt_reply (b : Byte) : (writeDt s b).reply = s.reply := rfl
@[simp] theorem writeDt_calls (b : Byte) : (writeDt s b).calls = s.calls := rfl
@[simp] theorem writeDt_callsDrawn (b : Byte) : (writeDt s b).callsDrawn = s.callsDrawn := rfl
@[simp] theorem writeDt_draws (b : Byte) : (writeDt s b).draws = s.draws := rfl

/-! ### `writeSt` -/

@[simp] theorem writeSt_v (b : Byte) : (writeSt s b).v = s.v := rfl
@[simp] theorem writeSt_i (b : Byte) : (writeSt s b).i = s.i := rfl
@[simp] theorem writeSt_pc (b : Byte) : (writeSt s b).pc = s.pc := rfl
@[simp] theorem writeSt_sp (b : Byte) : (writeSt s b).sp = s.sp := rfl
@[simp] theorem writeSt_stack (b : Byte) : (writeSt s b).stack = s.stack := rfl
@[simp] theorem writeSt_dt (b : Byte) : (writeSt s b).dt = s.dt := rfl
@[simp] theorem writeSt_st (b : Byte) : (writeSt s b).st = b := rfl
@[simp] theorem writeSt_mem (b : Byte) : (writeSt s b).mem = s.mem := rfl
@[simp] theorem writeSt_fb (b : Byte) : (writeSt s b).fb = s.fb := rfl
@[simp] theorem writeSt_fault (b : Byte) : (writeSt s b).fault = s.fault := rfl
@[simp] theorem writeSt_font (b : Byte) : (writeSt s b).font = s.font := rfl
@[simp] theorem writeSt_event (b : Byte) : (writeSt s b).event = s.event := rfl
@[simp] theorem writeSt_reply (b : Byte) : (writeSt s b).reply = s.reply := rfl
@[simp] theorem writeSt_calls (b : Byte) : (writeSt s b).calls = s.calls := rfl
@[simp] theorem writeSt_callsDrawn (b : Byte) : (writeSt s b).callsDrawn = s.callsDrawn := rfl
@[simp] theorem writeSt_draws (b : Byte) : (writeSt s b).draws = s.draws := rfl

/-! ### `writeFb` -/

@[simp] theorem writeFb_v (fb : FrameBuffer) : (writeFb s fb).v = s.v := rfl
@[simp] theorem writeFb_i (fb : FrameBuffer) : (writeFb s fb).i = s.i := rfl
@[simp] theorem writeFb_pc (fb : FrameBuffer) : (writeFb s fb).pc = s.pc := rfl
@[simp] theorem writeFb_sp (fb : FrameBuffer) : (writeFb s fb).sp = s.sp := rfl
@[simp] theorem writeFb_stack (fb : FrameBuffer) : (writeFb s fb).stack = s.stack := rfl
@[simp] theorem writeFb_dt (fb : FrameBuffer) : (writeFb s fb).dt = s.dt := rfl
@[simp] theorem writeFb_st (fb : FrameBuffer) : (writeFb s fb).st = s.st := rfl
@[simp] theorem writeFb_mem (fb : FrameBuffer) : (writeFb s fb).mem = s.mem := rfl
@[simp] theorem writeFb_fb (fb : FrameBuffer) : (writeFb s fb).fb = fb := rfl
@[simp] theorem writeFb_fault (fb : FrameBuffer) : (writeFb s fb).fault = s.fault := rfl
@[simp] theorem writeFb_font (fb : FrameBuffer) : (writeFb s fb).font = s.font := rfl
@[simp] theorem writeFb_event (fb : FrameBuffer) : (writeFb s fb).event = s.event := rfl
@[simp] theorem writeFb_reply (fb : FrameBuffer) : (writeFb s fb).reply = s.reply := rfl
@[simp] theorem writeFb_calls (fb : FrameBuffer) : (writeFb s fb).calls = s.calls := rfl
@[simp] theorem writeFb_callsDrawn (fb : FrameBuffer) : (writeFb s fb).callsDrawn = s.callsDrawn := rfl
@[simp] theorem writeFb_draws (fb : FrameBuffer) : (writeFb s fb).draws = s.draws := rfl

/-! ### `writeByte` -/

@[simp] theorem writeByte_v (a : Word) (b : Byte) : (writeByte s a b).v = s.v := rfl
@[simp] theorem writeByte_i (a : Word) (b : Byte) : (writeByte s a b).i = s.i := rfl
@[simp] theorem writeByte_pc (a : Word) (b : Byte) : (writeByte s a b).pc = s.pc := rfl
@[simp] theorem writeByte_sp (a : Word) (b : Byte) : (writeByte s a b).sp = s.sp := rfl
@[simp] theorem writeByte_stack (a : Word) (b : Byte) : (writeByte s a b).stack = s.stack := rfl
@[simp] theorem writeByte_dt (a : Word) (b : Byte) : (writeByte s a b).dt = s.dt := rfl
@[simp] theorem writeByte_st (a : Word) (b : Byte) : (writeByte s a b).st = s.st := rfl
@[simp] theorem writeByte_mem (a : Word) (b : Byte) : (writeByte s a b).mem =
    s.mem.store s.font (physical a) b := rfl
@[simp] theorem writeByte_fb (a : Word) (b : Byte) : (writeByte s a b).fb = s.fb := rfl
@[simp] theorem writeByte_fault (a : Word) (b : Byte) : (writeByte s a b).fault = s.fault := rfl
@[simp] theorem writeByte_font (a : Word) (b : Byte) : (writeByte s a b).font = s.font := rfl
@[simp] theorem writeByte_event (a : Word) (b : Byte) : (writeByte s a b).event = s.event := rfl
@[simp] theorem writeByte_reply (a : Word) (b : Byte) : (writeByte s a b).reply = s.reply := rfl
@[simp] theorem writeByte_calls (a : Word) (b : Byte) : (writeByte s a b).calls = s.calls := rfl
@[simp] theorem writeByte_callsDrawn (a : Word) (b : Byte) : (writeByte s a b).callsDrawn = s.callsDrawn := rfl
@[simp] theorem writeByte_draws (a : Word) (b : Byte) : (writeByte s a b).draws = s.draws := rfl

/-! ### `leave` -/

@[simp] theorem leave_v (a : Word) (o : StepOutcome) : (leave s a o).v = s.v := rfl
@[simp] theorem leave_i (a : Word) (o : StepOutcome) : (leave s a o).i = s.i := rfl
@[simp] theorem leave_pc (a : Word) (o : StepOutcome) : (leave s a o).pc = a := rfl
@[simp] theorem leave_sp (a : Word) (o : StepOutcome) : (leave s a o).sp = s.sp := rfl
@[simp] theorem leave_stack (a : Word) (o : StepOutcome) : (leave s a o).stack = s.stack := rfl
@[simp] theorem leave_dt (a : Word) (o : StepOutcome) : (leave s a o).dt = s.dt := rfl
@[simp] theorem leave_st (a : Word) (o : StepOutcome) : (leave s a o).st = s.st := rfl
@[simp] theorem leave_mem (a : Word) (o : StepOutcome) : (leave s a o).mem = s.mem := rfl
@[simp] theorem leave_fb (a : Word) (o : StepOutcome) : (leave s a o).fb = s.fb := rfl
@[simp] theorem leave_fault (a : Word) (o : StepOutcome) : (leave s a o).fault = s.fault := rfl
@[simp] theorem leave_font (a : Word) (o : StepOutcome) : (leave s a o).font = s.font := rfl
@[simp] theorem leave_event (a : Word) (o : StepOutcome) : (leave s a o).event = s.event := rfl
@[simp] theorem leave_reply (a : Word) (o : StepOutcome) : (leave s a o).reply = .outcome o := rfl
@[simp] theorem leave_calls (a : Word) (o : StepOutcome) : (leave s a o).calls = s.calls := rfl
@[simp] theorem leave_callsDrawn (a : Word) (o : StepOutcome) : (leave s a o).callsDrawn = s.callsDrawn := rfl
@[simp] theorem leave_draws (a : Word) (o : StepOutcome) : (leave s a o).draws = s.draws := rfl

/-! ### `afterDraw` -/

@[simp] theorem afterDraw_v : (afterDraw s).v = s.v := rfl
@[simp] theorem afterDraw_i : (afterDraw s).i = s.i := rfl
@[simp] theorem afterDraw_pc : (afterDraw s).pc = s.pc := rfl
@[simp] theorem afterDraw_sp : (afterDraw s).sp = s.sp := rfl
@[simp] theorem afterDraw_stack : (afterDraw s).stack = s.stack := rfl
@[simp] theorem afterDraw_dt : (afterDraw s).dt = s.dt := rfl
@[simp] theorem afterDraw_st : (afterDraw s).st = s.st := rfl
@[simp] theorem afterDraw_mem : (afterDraw s).mem = s.mem := rfl
@[simp] theorem afterDraw_fb : (afterDraw s).fb = s.fb := rfl
@[simp] theorem afterDraw_fault : (afterDraw s).fault = s.fault := rfl
@[simp] theorem afterDraw_font : (afterDraw s).font = s.font := rfl
@[simp] theorem afterDraw_event : (afterDraw s).event = s.event := rfl
@[simp] theorem afterDraw_reply : (afterDraw s).reply = s.reply := rfl
@[simp] theorem afterDraw_calls : (afterDraw s).calls = s.calls := rfl
@[simp] theorem afterDraw_callsDrawn : (afterDraw s).callsDrawn = s.callsDrawn := rfl
@[simp] theorem afterDraw_draws : (afterDraw s).draws = s.draws + 1 := rfl

/-! ### `beginStep` -/

@[simp] theorem beginStep_v (e : Event) : (beginStep e s).v = s.v := rfl
@[simp] theorem beginStep_i (e : Event) : (beginStep e s).i = s.i := rfl
@[simp] theorem beginStep_pc (e : Event) : (beginStep e s).pc = s.pc := rfl
@[simp] theorem beginStep_sp (e : Event) : (beginStep e s).sp = s.sp := rfl
@[simp] theorem beginStep_stack (e : Event) : (beginStep e s).stack = s.stack := rfl
@[simp] theorem beginStep_dt (e : Event) : (beginStep e s).dt = s.dt := rfl
@[simp] theorem beginStep_st (e : Event) : (beginStep e s).st = s.st := rfl
@[simp] theorem beginStep_mem (e : Event) : (beginStep e s).mem = s.mem := rfl
@[simp] theorem beginStep_fb (e : Event) : (beginStep e s).fb = s.fb := rfl
@[simp] theorem beginStep_fault (e : Event) : (beginStep e s).fault = s.fault := rfl
@[simp] theorem beginStep_font (e : Event) : (beginStep e s).font = s.font := rfl
@[simp] theorem beginStep_event (e : Event) : (beginStep e s).event = e := rfl
@[simp] theorem beginStep_reply (e : Event) : (beginStep e s).reply = s.reply := rfl
@[simp] theorem beginStep_calls (e : Event) : (beginStep e s).calls = s.calls := rfl
@[simp] theorem beginStep_callsDrawn (e : Event) : (beginStep e s).callsDrawn = s.callsDrawn := rfl
@[simp] theorem beginStep_draws (e : Event) : (beginStep e s).draws = s.draws := rfl

/-! ### `tickTimers` -/

@[simp] theorem tickTimers_v : (tickTimers s).v = s.v := rfl
@[simp] theorem tickTimers_i : (tickTimers s).i = s.i := rfl
@[simp] theorem tickTimers_pc : (tickTimers s).pc = s.pc := rfl
@[simp] theorem tickTimers_sp : (tickTimers s).sp = s.sp := rfl
@[simp] theorem tickTimers_stack : (tickTimers s).stack = s.stack := rfl
@[simp] theorem tickTimers_dt : (tickTimers s).dt = countDown s.dt := rfl
@[simp] theorem tickTimers_st : (tickTimers s).st = countDown s.st := rfl
@[simp] theorem tickTimers_mem : (tickTimers s).mem = s.mem := rfl
@[simp] theorem tickTimers_fb : (tickTimers s).fb = s.fb := rfl
@[simp] theorem tickTimers_fault : (tickTimers s).fault = s.fault := rfl
@[simp] theorem tickTimers_font : (tickTimers s).font = s.font := rfl
@[simp] theorem tickTimers_event : (tickTimers s).event = s.event := rfl
@[simp] theorem tickTimers_reply : (tickTimers s).reply = .nothing := rfl
@[simp] theorem tickTimers_calls : (tickTimers s).calls = s.calls := rfl
@[simp] theorem tickTimers_callsDrawn : (tickTimers s).callsDrawn = s.callsDrawn := rfl
@[simp] theorem tickTimers_draws : (tickTimers s).draws = s.draws := rfl

/-! ### `setFlag`, a write of `VF` -/

@[simp] theorem setFlag_eq (f : Bool) : setFlag s f = writeV s 0xF#4 (flagByte f) := rfl

/-! ### The ends of an instruction -/

@[simp] theorem advance_eq : advance s = leave s (s.pc + 2) .none := rfl
@[simp] theorem jump_eq (a : Word) : jump s a = leave s a .none := rfl
@[simp] theorem redraw_eq : redraw s = leave s (s.pc + 2) (.redraw s.fb) := rfl
@[simp] theorem await_eq : await s = leave s s.pc .awaitKey := rfl
@[simp] theorem skipIf_eq (c : Bool) :
    skipIf s c = leave s (if c then s.pc + 2 + 2 else s.pc + 2) .none := rfl
@[simp] theorem writeResultAndFlag_eq (x : Nibble) (r : Byte) (f : Bool) :
    writeResultAndFlag s x r f =
      leave (writeV (writeV s x r) 0xF#4 (flagByte f)) (s.pc + 2) .none := rfl

/-! ### `afterCall`: the listed call, or the count of free ones -/

@[simp] theorem afterCall_v : (afterCall s).v = s.v := by unfold afterCall; split <;> rfl
@[simp] theorem afterCall_i : (afterCall s).i = s.i := by unfold afterCall; split <;> rfl
@[simp] theorem afterCall_pc : (afterCall s).pc = s.pc := by unfold afterCall; split <;> rfl
@[simp] theorem afterCall_sp : (afterCall s).sp = s.sp := by unfold afterCall; split <;> rfl
@[simp] theorem afterCall_stack : (afterCall s).stack = s.stack := by unfold afterCall; split <;> rfl
@[simp] theorem afterCall_dt : (afterCall s).dt = s.dt := by unfold afterCall; split <;> rfl
@[simp] theorem afterCall_st : (afterCall s).st = s.st := by unfold afterCall; split <;> rfl
@[simp] theorem afterCall_mem : (afterCall s).mem = s.mem := by unfold afterCall; split <;> rfl
@[simp] theorem afterCall_fb : (afterCall s).fb = s.fb := by unfold afterCall; split <;> rfl
@[simp] theorem afterCall_fault : (afterCall s).fault = s.fault := by unfold afterCall; split <;> rfl
@[simp] theorem afterCall_font : (afterCall s).font = s.font := by unfold afterCall; split <;> rfl
@[simp] theorem afterCall_event : (afterCall s).event = s.event := by unfold afterCall; split <;> rfl
@[simp] theorem afterCall_reply : (afterCall s).reply = s.reply := by unfold afterCall; split <;> rfl
@[simp] theorem afterCall_draws : (afterCall s).draws = s.draws := by unfold afterCall; split <;> rfl
@[simp] theorem afterCall_calls : (afterCall s).calls = s.calls.tail := by
  unfold afterCall; split <;> simp_all
theorem afterCall_callsDrawn :
    (afterCall s).callsDrawn = if s.calls = [] then s.callsDrawn + 1 else s.callsDrawn := by
  unfold afterCall; split <;> simp_all

/-! ### `storeFirst` and `loadFirst`: all but memory, all but the registers -/

@[simp] theorem storeFirst_v (k : Nat) : (storeFirst s k).v = s.v := by
  induction k with
  | zero => rfl
  | succ k ih => exact ih
@[simp] theorem storeFirst_i (k : Nat) : (storeFirst s k).i = s.i := by
  induction k with
  | zero => rfl
  | succ k ih => exact ih
@[simp] theorem storeFirst_pc (k : Nat) : (storeFirst s k).pc = s.pc := by
  induction k with
  | zero => rfl
  | succ k ih => exact ih
@[simp] theorem storeFirst_sp (k : Nat) : (storeFirst s k).sp = s.sp := by
  induction k with
  | zero => rfl
  | succ k ih => exact ih
@[simp] theorem storeFirst_stack (k : Nat) : (storeFirst s k).stack = s.stack := by
  induction k with
  | zero => rfl
  | succ k ih => exact ih
@[simp] theorem storeFirst_dt (k : Nat) : (storeFirst s k).dt = s.dt := by
  induction k with
  | zero => rfl
  | succ k ih => exact ih
@[simp] theorem storeFirst_st (k : Nat) : (storeFirst s k).st = s.st := by
  induction k with
  | zero => rfl
  | succ k ih => exact ih
@[simp] theorem storeFirst_fb (k : Nat) : (storeFirst s k).fb = s.fb := by
  induction k with
  | zero => rfl
  | succ k ih => exact ih
@[simp] theorem storeFirst_fault (k : Nat) : (storeFirst s k).fault = s.fault := by
  induction k with
  | zero => rfl
  | succ k ih => exact ih
@[simp] theorem storeFirst_font (k : Nat) : (storeFirst s k).font = s.font := by
  induction k with
  | zero => rfl
  | succ k ih => exact ih
@[simp] theorem storeFirst_event (k : Nat) : (storeFirst s k).event = s.event := by
  induction k with
  | zero => rfl
  | succ k ih => exact ih
@[simp] theorem storeFirst_reply (k : Nat) : (storeFirst s k).reply = s.reply := by
  induction k with
  | zero => rfl
  | succ k ih => exact ih
@[simp] theorem storeFirst_calls (k : Nat) : (storeFirst s k).calls = s.calls := by
  induction k with
  | zero => rfl
  | succ k ih => exact ih
@[simp] theorem storeFirst_callsDrawn (k : Nat) : (storeFirst s k).callsDrawn = s.callsDrawn := by
  induction k with
  | zero => rfl
  | succ k ih => exact ih
@[simp] theorem storeFirst_draws (k : Nat) : (storeFirst s k).draws = s.draws := by
  induction k with
  | zero => rfl
  | succ k ih => exact ih

@[simp] theorem loadFirst_i (k : Nat) : (loadFirst s k).i = s.i := by
  induction k with
  | zero => rfl
  | succ k ih => exact ih
@[simp] theorem loadFirst_pc (k : Nat) : (loadFirst s k).pc = s.pc := by
  induction k with
  | zero => rfl
  | succ k ih => exact ih
@[simp] theorem loadFirst_sp (k : Nat) : (loadFirst s k).sp = s.sp := by
  induction k with
  | zero => rfl
  | succ k ih => exact ih
@[simp] theorem loadFirst_stack (k : Nat) : (loadFirst s k).stack = s.stack := by
  induction k with
  | zero => rfl
  | succ k ih => exact ih
@[simp] theorem loadFirst_dt (k : Nat) : (loadFirst s k).dt = s.dt := by
  induction k with
  | zero => rfl
  | succ k ih => exact ih
@[simp] theorem loadFirst_st (k : Nat) : (loadFirst s k).st = s.st := by
  induction k with
  | zero => rfl
  | succ k ih => exact ih
@[simp] theorem loadFirst_mem (k : Nat) : (loadFirst s k).mem = s.mem := by
  induction k with
  | zero => rfl
  | succ k ih => exact ih
@[simp] theorem loadFirst_fb (k : Nat) : (loadFirst s k).fb = s.fb := by
  induction k with
  | zero => rfl
  | succ k ih => exact ih
@[simp] theorem loadFirst_fault (k : Nat) : (loadFirst s k).fault = s.fault := by
  induction k with
  | zero => rfl
  | succ k ih => exact ih
@[simp] theorem loadFirst_font (k : Nat) : (loadFirst s k).font = s.font := by
  induction k with
  | zero => rfl
  | succ k ih => exact ih
@[simp] theorem loadFirst_event (k : Nat) : (loadFirst s k).event = s.event := by
  induction k with
  | zero => rfl
  | succ k ih => exact ih
@[simp] theorem loadFirst_reply (k : Nat) : (loadFirst s k).reply = s.reply := by
  induction k with
  | zero => rfl
  | succ k ih => exact ih
@[simp] theorem loadFirst_calls (k : Nat) : (loadFirst s k).calls = s.calls := by
  induction k with
  | zero => rfl
  | succ k ih => exact ih
@[simp] theorem loadFirst_callsDrawn (k : Nat) : (loadFirst s k).callsDrawn = s.callsDrawn := by
  induction k with
  | zero => rfl
  | succ k ih => exact ih
@[simp] theorem loadFirst_draws (k : Nat) : (loadFirst s k).draws = s.draws := by
  induction k with
  | zero => rfl
  | succ k ih => exact ih

end Sys2Proof.Machine
end

