-- ==== Sys2Proof/Laws/Ops.lean ====
section
/-!
SUPPORT. One law per shared operation: what it answers and what it can do.
-/

namespace Sys2Proof.Machine

variable (s : State)

/-! ## Registers -/

/-- A register read depends on the register file only. -/
theorem readV_congr {s t : State} (h : t.v = s.v) (x : Nibble) : readV t x = readV s x := by
  unfold readV; simp [h]

/-- A read after a register write (10_state R10: "a write to one changes no other"). -/
@[simp] theorem readV_writeV (x y : Nibble) (b : Byte) :
    readV (writeV s x b) y = if y = x then b else readV s y := by
  unfold readV writeV
  simp only [Vector.getElem_set]
  by_cases h : y = x
  · simp [h]
  · have : x.toNat ≠ y.toNat := fun e => h (BitVec.eq_of_toNat_eq e.symm)
    simp [h, this]

@[simp] theorem readV_writeI (a : Word) (y : Nibble) : readV (writeI s a) y = readV s y := rfl
@[simp] theorem readV_writeDt (b : Byte) (y : Nibble) : readV (writeDt s b) y = readV s y := rfl
@[simp] theorem readV_writeSt (b : Byte) (y : Nibble) : readV (writeSt s b) y = readV s y := rfl
@[simp] theorem readV_writeFb (f : FrameBuffer) (y : Nibble) : readV (writeFb s f) y = readV s y := rfl
@[simp] theorem readV_writeByte (a : Word) (b : Byte) (y : Nibble) :
    readV (writeByte s a b) y = readV s y := rfl
@[simp] theorem readV_leave (a : Word) (o : StepOutcome) (y : Nibble) :
    readV (leave s a o) y = readV s y := rfl
@[simp] theorem readV_afterDraw (y : Nibble) : readV (afterDraw s) y = readV s y := rfl
@[simp] theorem readV_beginStep (e : Event) (y : Nibble) : readV (beginStep e s) y = readV s y := rfl
@[simp] theorem readV_tickTimers (y : Nibble) : readV (tickTimers s) y = readV s y := rfl
@[simp] theorem readV_afterCall (y : Nibble) : readV (afterCall s) y = readV s y :=
  readV_congr (afterCall_v s) y
@[simp] theorem readV_storeFirst (k : Nat) (y : Nibble) : readV (storeFirst s k) y = readV s y :=
  readV_congr (storeFirst_v s k) y

/-! ## Memory bytes -/

/-- A byte read depends on the memory and the font table only. -/
theorem readByte_congr {s t : State} (h : t.mem = s.mem) (hf : t.font = s.font) (a : Word) :
    readByte t a = readByte s a := by
  unfold readByte; rw [h, hf]

/-- A read after a write: the byte written, at every raw address with the same physical address
(20_memory R40, R46). -/
@[simp] theorem readByte_writeByte (a b : Word) (v : Byte) :
    readByte (writeByte s a v) b = if physical b = physical a then v else readByte s b :=
  Memory.lookup_store s.mem (physical a) (physical b) v

@[simp] theorem readByte_writeV (x : Nibble) (b : Byte) (a : Word) :
    readByte (writeV s x b) a = readByte s a := rfl
@[simp] theorem readByte_writeI (c a : Word) : readByte (writeI s c) a = readByte s a := rfl
@[simp] theorem readByte_writeDt (b : Byte) (a : Word) : readByte (writeDt s b) a = readByte s a := rfl
@[simp] theorem readByte_writeSt (b : Byte) (a : Word) : readByte (writeSt s b) a = readByte s a := rfl
@[simp] theorem readByte_writeFb (f : FrameBuffer) (a : Word) :
    readByte (writeFb s f) a = readByte s a := rfl
@[simp] theorem readByte_leave (c : Word) (o : StepOutcome) (a : Word) :
    readByte (leave s c o) a = readByte s a := rfl
@[simp] theorem readByte_afterDraw (a : Word) : readByte (afterDraw s) a = readByte s a := rfl
@[simp] theorem readByte_beginStep (e : Event) (a : Word) :
    readByte (beginStep e s) a = readByte s a := rfl
@[simp] theorem readByte_tickTimers (a : Word) : readByte (tickTimers s) a = readByte s a := rfl
@[simp] theorem readByte_afterCall (a : Word) : readByte (afterCall s) a = readByte s a :=
  readByte_congr (afterCall_mem s) (afterCall_font s) a
@[simp] theorem readByte_loadFirst (k : Nat) (a : Word) : readByte (loadFirst s k) a = readByte s a :=
  readByte_congr (loadFirst_mem s k) (loadFirst_font s k) a

/-- The fetch depends on `PC`, the memory and the font table only. -/
theorem fetchWord_congr {s t : State} (hp : t.pc = s.pc) (hm : t.mem = s.mem) (hf : t.font = s.font) :
    fetchWord t = fetchWord s := by
  unfold fetchWord; rw [hp, readByte_congr hm hf, readByte_congr hm hf]

/-! ## Pixels -/

/-- A read after a pixel write. -/
@[simp] theorem pixel_setPixel (fb : FrameBuffer) (r r' : Fin 32) (c c' : Fin 64) (b : Bool) :
    pixel (setPixel fb r c b) r' c' = if r' = r ∧ c' = c then b else pixel fb r' c' := by
  unfold pixel setPixel
  by_cases hr : r' = r
  · subst hr
    by_cases hc : c' = c
    · subst hc; cases b <;> simp
    · have h1 : ¬ c'.val = c.val := fun e => hc (Fin.ext e)
      cases b <;> simp [hc, h1]
  · have h1 : ¬ r.val = r'.val := fun e => hr (Fin.ext e.symm)
    cases b <;> simp [hr, h1]

/-- One sprite bit: it changes its own pixel by exclusive or, and records a lit pixel put out (43_draw
R142). -/
theorem pixel_blitPixel (r r' : Fin 32) (c c' : Fin 64) (bit : Bool) (p : FrameBuffer × Bool) :
    pixel (blitPixel r c bit p).1 r' c' =
      if r' = r ∧ c' = c then (pixel p.1 r c ^^ bit) else pixel p.1 r' c' := by
  simp [blitPixel]

@[simp] theorem pixel_blankScreen (r : Fin 32) (c : Fin 64) : pixel blankScreen r c = false := by
  simp [pixel, blankScreen]

/-! ## Faults and the stack -/

/-- Taking a fault always answers, and writes `FAULT` and the reply only (60_exceptions R204). -/
theorem raise_eq (f : FaultRecord) : raise f s = .next { s with fault := some f, reply := .fault f } := rfl

/-- A push with room: the entry at `SP`, `SP + 1`, then the rest of the instruction (R19). -/
theorem push_of_lt (a : Word) (go : State → State) (h : s.sp.val < 16) :
    push s a go = .next (go { s with
      stack := s.stack.set s.sp.val a, sp := ⟨s.sp.val + 1, by omega⟩ }) := by
  simp [push, h]

/-- A push without room faults (R19, R202). -/
theorem push_of_full (a : Word) (go : State → State) (h : s.sp.val = 16) :
    push s a go = raise (.stackOverflow s.pc) s := by
  simp [push, h]

/-- A pop of a stack that is not empty (R19). -/
theorem pop_of_pos (go : Word → State → State) (h : s.sp.val ≠ 0) :
    pop s go = .next (go s.stack[s.sp.val - 1] { s with sp := ⟨s.sp.val - 1, by omega⟩ }) := by
  simp [pop, h]

/-- A pop of an empty stack faults (R19, R202). -/
theorem pop_of_zero (go : Word → State → State) (h : s.sp.val = 0) :
    pop s go = raise (.stackUnderflow s.pc) s := by
  simp [pop, h]

/-! ## The step -/

/-- The next call is the first listed one. -/
theorem nextCall_of_cons {c : HostCall} {cs : List HostCall} (h : s.calls = c :: cs) :
    nextCall s = c := by
  simp [nextCall, h]

/-- Everything a step that answers a next state can do: a reset, a tick or an instruction, the last two
only while `FAULT` is `none`. -/
theorem step_cases {s t : State} (h : step s = .next t) :
    (∃ image, nextCall s = .reset image ∧ image.length ≤ 3584 ∧
      t = { State.resetWith s.font with
        mem := loadImage s.font image, calls := s.calls.tail, callsDrawn := (afterCall s).callsDrawn,
        draws := s.draws }) ∨
    (nextCall s = .tick ∧ s.fault = none ∧ t = tickTimers (afterCall s)) ∨
    (∃ e, nextCall s = .step e ∧ s.fault = none ∧ runInstr (beginStep e (afterCall s)) = .next t) := by
  unfold step at h
  cases hc : nextCall s with
  | reset image =>
    left
    simp only [hc, resetMachine] at h
    split at h
    · next hw =>
      refine ⟨image, rfl, of_decide_eq_true hw, ?_⟩
      simpa using h.symm
    · simp at h
  | tick =>
    cases hf : s.fault with
    | none => simp only [hc, hf] at h; exact .inr (.inl ⟨rfl, rfl, by simpa using h.symm⟩)
    | some f => simp [hc, hf] at h
  | step e =>
    cases hf : s.fault with
    | none => simp only [hc, hf] at h; exact .inr (.inr ⟨e, rfl, rfl, h⟩)
    | some f => simp [hc, hf] at h

end Sys2Proof.Machine
end

