-- ==== Sys2Proof/Laws/Draw.lean ====
section
/-!
SUPPORT. What drawing some columns of a row, and some rows of a sprite, does to the framebuffer and to the
collision found so far.
-/

namespace Sys2Proof.Machine

/-- Two columns of one sprite never land on the same framebuffer column (43_draw R141). -/
theorem spriteCol_inj {vx : Byte} {a b : Nat} (ha : a < 8) (hb : b < 8)
    (h : spriteCol vx a = spriteCol vx b) : a = b := by
  have := congrArg Fin.val h
  simp only [spriteCol] at this
  omega

/-- Two rows of one sprite never land on the same framebuffer row (43_draw R141). -/
theorem spriteRow_inj {vy : Byte} {a b : Nat} (ha : a < 32) (hb : b < 32)
    (h : spriteRow vy a = spriteRow vy b) : a = b := by
  have := congrArg Fin.val h
  simp only [spriteRow] at this
  omega

/-- The first `k` columns of a sprite byte: each flips its pixel by its bit, no other pixel changes, and
the collision is found when a 1 bit landed on a lit pixel. -/
theorem blitCols_spec (vx : Byte) (r : Fin 32) (sprite : Byte) (p : FrameBuffer × Bool) (k : Nat)
    (hk : k ≤ 8) :
    let q := (List.range k).foldl
      (fun q col => blitPixel r (spriteCol vx col) (spriteBit sprite col) q) p
    (∀ col, col < k → pixel q.1 r (spriteCol vx col) =
      (pixel p.1 r (spriteCol vx col) ^^ spriteBit sprite col)) ∧
    (∀ r' c', (∀ col, col < k → ¬ (r' = r ∧ c' = spriteCol vx col)) →
      pixel q.1 r' c' = pixel p.1 r' c') ∧
    (q.2 = true ↔ p.2 = true ∨
      ∃ col, col < k ∧ spriteBit sprite col = true ∧ pixel p.1 r (spriteCol vx col) = true) := by
  induction k with
  | zero => simp
  | succ k ih =>
    obtain ⟨h1, h2, h3⟩ := ih (by omega)
    simp only [List.range_succ, List.foldl_append, List.foldl_cons, List.foldl_nil]
    set q := (List.range k).foldl
      (fun q col => blitPixel r (spriteCol vx col) (spriteBit sprite col) q) p
    have hnew : pixel q.1 r (spriteCol vx k) = pixel p.1 r (spriteCol vx k) :=
      h2 r _ fun col hcol e => by
        have := spriteCol_inj (by omega) (by omega) e.2
        omega
    refine ⟨fun col hcol => ?_, fun r' c' h => ?_, ?_⟩
    · rw [pixel_blitPixel]
      by_cases e : col = k
      · subst e; simp [hnew]
      · have : ¬ spriteCol vx col = spriteCol vx k := fun e' =>
          e (spriteCol_inj (by omega) (by omega) e')
        simp only [this, and_false, ↓reduceIte]
        exact h1 col (by omega)
    · rw [pixel_blitPixel, if_neg (h k (by omega))]
      exact h2 r' c' fun col hcol => h col (by omega)
    · simp only [blitPixel, Bool.or_eq_true, h3, collides, Bool.and_eq_true, hnew]
      constructor
      · rintro ((hp | ⟨col, hc, hb⟩) | hb)
        · exact .inl hp
        · exact .inr ⟨col, by omega, hb⟩
        · exact .inr ⟨k, by omega, hb⟩
      · rintro (hp | ⟨col, hc, hb⟩)
        · exact .inl (.inl hp)
        · by_cases e : col = k
          · subst e; exact .inr hb
          · exact .inl (.inr ⟨col, by omega, hb⟩)

/-- The first `n` rows of the sprite at `I`: each bit flips its pixel, no other pixel changes, and `hit`
is found when a 1 bit landed on a pixel that was lit before the instruction (43_draw R140 to R142). -/
theorem blitSprite_spec (s : State) (vx vy : Byte) (n : Nat) (hn : n ≤ 32) :
    (∀ row col, row < n → col < 8 →
      pixel (blitSprite s vx vy n).1 (spriteRow vy row) (spriteCol vx col) =
        (pixel s.fb (spriteRow vy row) (spriteCol vx col) ^^
          spriteBit (readByte s (dataAddr s row)) col)) ∧
    (∀ r c, (∀ row col, row < n → col < 8 → ¬ (r = spriteRow vy row ∧ c = spriteCol vx col)) →
      pixel (blitSprite s vx vy n).1 r c = pixel s.fb r c) ∧
    ((blitSprite s vx vy n).2 = true ↔
      ∃ row col, row < n ∧ col < 8 ∧ spriteBit (readByte s (dataAddr s row)) col = true ∧
        pixel s.fb (spriteRow vy row) (spriteCol vx col) = true) := by
  induction n with
  | zero => simp [blitSprite]
  | succ n ih =>
    obtain ⟨h1, h2, h3⟩ := ih (by omega)
    have hstep : blitSprite s vx vy (n + 1) =
        blitRow vx (spriteRow vy n) (readByte s (dataAddr s n)) (blitSprite s vx vy n) := by
      simp [blitSprite, List.range_succ]
    rw [hstep]
    obtain ⟨g1, g2, g3⟩ := blitCols_spec vx (spriteRow vy n) (readByte s (dataAddr s n))
      (blitSprite s vx vy n) 8 le_rfl
    change (∀ col, col < 8 → pixel (blitRow _ _ _ _).1 _ _ = _) at g1
    change (∀ r' c', _ → pixel (blitRow _ _ _ _).1 _ _ = _) at g2
    change ((blitRow _ _ _ _).2 = true ↔ _) at g3
    have hnew : ∀ c, pixel (blitSprite s vx vy n).1 (spriteRow vy n) c =
        pixel s.fb (spriteRow vy n) c := fun c => h2 _ _ fun row col hr _ e => by
      have := spriteRow_inj (by omega) (by omega) e.1
      omega
    refine ⟨fun row col hr hc => ?_, fun r c h => ?_, ?_⟩
    · by_cases e : row = n
      · subst e; rw [g1 col hc, hnew]
      · rw [g2 _ _ fun col' _ e' => e (spriteRow_inj (by omega) (by omega) e'.1)]
        exact h1 row col (by omega) hc
    · rw [g2 r c fun col hc => h n col (by omega) hc]
      exact h2 r c fun row col hr hc => h row col (by omega) hc
    · rw [g3, h3]
      simp only [hnew]
      constructor
      · rintro (⟨row, col, hr, h⟩ | ⟨col, h⟩)
        · exact ⟨row, col, by omega, h⟩
        · exact ⟨n, col, by omega, h⟩
      · rintro ⟨row, col, hr, h⟩
        by_cases e : row = n
        · subst e; exact .inr ⟨col, h⟩
        · exact .inl ⟨row, col, by omega, h⟩

end Sys2Proof.Machine
end

