-- ==== Sys2Proof/Laws/IndexMemory.lean ====
section
/-!
SUPPORT. What the bulk moves do (45_index_memory R163, R164), and that every memory write keeps the
canonical form.
-/

namespace Sys2Proof.Machine

variable (s : State)

/-- The physical address of a data access (45_index_memory R166). -/
theorem physical_dataAddr (k : Nat) : physical (dataAddr s k) = (s.i.toNat + k) % 4096 :=
  physical_add s.i k

/-- One instruction's data addresses are distinct (20_memory R47). -/
theorem physical_dataAddr_inj {a b : Nat} (ha : a < 4096) (hb : b < 4096)
    (h : physical (dataAddr s a) = physical (dataAddr s b)) : a = b := by
  rw [physical_dataAddr, physical_dataAddr] at h
  omega

/-- The first `k` registers stored: byte `j` from `I` is `V[j]`, and no other byte changes. -/
theorem readByte_storeFirst (k : Nat) (hk : k ≤ 16) :
    (∀ j, j < k → ∀ a, physical a = physical (dataAddr s j) →
      readByte (storeFirst s k) a = readV s (BitVec.ofNat 4 j)) ∧
    (∀ a, (∀ j, j < k → physical a ≠ physical (dataAddr s j)) →
      readByte (storeFirst s k) a = readByte s a) := by
  induction k with
  | zero => simp [storeFirst]
  | succ k ih =>
    obtain ⟨h1, h2⟩ := ih (by omega)
    refine ⟨fun j hj a ha => ?_, fun a ha => ?_⟩
    · rw [storeFirst, readByte_writeByte]
      by_cases e : j = k
      · subst e; rw [if_pos ha]
      · rw [if_neg (fun e' => e (physical_dataAddr_inj s (by omega) (by omega) (ha.symm.trans e')))]
        exact h1 j (by omega) a ha
    · rw [storeFirst, readByte_writeByte, if_neg (ha k (by omega))]
      exact h2 a fun j hj => ha j (by omega)

/-- The first `k` registers loaded: `V[j]` is byte `j` from `I`, and no other register changes. -/
theorem readV_loadFirst (k : Nat) (hk : k ≤ 16) (r : Nibble) :
    readV (loadFirst s k) r =
      if r.toNat < k then readByte s (dataAddr s r.toNat) else readV s r := by
  induction k with
  | zero => simp [loadFirst]
  | succ k ih =>
    rw [loadFirst, readV_writeV, ih (by omega)]
    by_cases e : r.toNat = k
    · have hr : r = BitVec.ofNat 4 k := by rw [← e]; simp
      rw [if_pos hr, if_pos (by omega), e]
    · have hr : r ≠ BitVec.ofNat 4 k := by
        rintro rfl
        apply e
        simp only [BitVec.toNat_ofNat]
        omega
      rw [if_neg hr]
      by_cases h : r.toNat < k
      · rw [if_pos h, if_pos (by omega)]
      · rw [if_neg h, if_neg (by omega)]

/-- A byte write keeps the canonical form. -/
theorem wf_writeByte (a : Word) (v : Byte) (h : s.mem.wf s.font = true) :
    (writeByte s a v).mem.wf (writeByte s a v).font = true :=
  Memory.wf_store v h (physical_lt a)

/-- The bulk store keeps the canonical form. -/
theorem wf_storeFirst (k : Nat) (h : s.mem.wf s.font = true) :
    (storeFirst s k).mem.wf (storeFirst s k).font = true := by
  induction k with
  | zero => exact h
  | succ k ih => exact wf_writeByte _ _ _ ih

/-- The memory right after a reset is in canonical form. -/
theorem wf_loadImage {font : Font} {image : List Byte} (h : image.length ≤ 3584) :
    (loadImage font image).wf font = true :=
  Memory.wf_storeList image rfl (by omega)

end Sys2Proof.Machine
end

