-- ==== Sys2Proof/Laws/PerInstr.lean ====
section
/-!
SUPPORT. Per instruction: every field of the encoded word stands where the format of its row puts it
(30_encoding R61, R62, R66).
-/

namespace Sys2Proof.Laws.FieldsPlaced

/-- The fields of `w` are those of the instruction's row of the opcode map. -/
def At (w : Word) : Instr → Prop
  | .cls => w = 0x00E0#16
  | .ret => w = 0x00EE#16
  | .jp nnn => opOf w = 0x1#4 ∧ nnnOf w = nnn
  | .call nnn => opOf w = 0x2#4 ∧ nnnOf w = nnn
  | .seImm x kk => opOf w = 0x3#4 ∧ xOf w = x ∧ kkOf w = kk
  | .sneImm x kk => opOf w = 0x4#4 ∧ xOf w = x ∧ kkOf w = kk
  | .seReg x y => opOf w = 0x5#4 ∧ xOf w = x ∧ yOf w = y ∧ nOf w = 0x0#4
  | .sneReg x y => opOf w = 0x9#4 ∧ xOf w = x ∧ yOf w = y ∧ nOf w = 0x0#4
  | .ldImm x kk => opOf w = 0x6#4 ∧ xOf w = x ∧ kkOf w = kk
  | .addImm x kk => opOf w = 0x7#4 ∧ xOf w = x ∧ kkOf w = kk
  | .ldReg x y => opOf w = 0x8#4 ∧ xOf w = x ∧ yOf w = y ∧ nOf w = 0x0#4
  | .orReg x y => opOf w = 0x8#4 ∧ xOf w = x ∧ yOf w = y ∧ nOf w = 0x1#4
  | .andReg x y => opOf w = 0x8#4 ∧ xOf w = x ∧ yOf w = y ∧ nOf w = 0x2#4
  | .xorReg x y => opOf w = 0x8#4 ∧ xOf w = x ∧ yOf w = y ∧ nOf w = 0x3#4
  | .addReg x y => opOf w = 0x8#4 ∧ xOf w = x ∧ yOf w = y ∧ nOf w = 0x4#4
  | .sub x y => opOf w = 0x8#4 ∧ xOf w = x ∧ yOf w = y ∧ nOf w = 0x5#4
  | .shr x y => opOf w = 0x8#4 ∧ xOf w = x ∧ yOf w = y ∧ nOf w = 0x6#4
  | .subn x y => opOf w = 0x8#4 ∧ xOf w = x ∧ yOf w = y ∧ nOf w = 0x7#4
  | .shl x y => opOf w = 0x8#4 ∧ xOf w = x ∧ yOf w = y ∧ nOf w = 0xE#4
  | .ldI nnn => opOf w = 0xA#4 ∧ nnnOf w = nnn
  | .jpV0 nnn => opOf w = 0xB#4 ∧ nnnOf w = nnn
  | .rnd x kk => opOf w = 0xC#4 ∧ xOf w = x ∧ kkOf w = kk
  | .drw x y n => opOf w = 0xD#4 ∧ xOf w = x ∧ yOf w = y ∧ nOf w = n
  | .skp x => opOf w = 0xE#4 ∧ xOf w = x ∧ kkOf w = 0x9E#8
  | .sknp x => opOf w = 0xE#4 ∧ xOf w = x ∧ kkOf w = 0xA1#8
  | .ldVxDt x => opOf w = 0xF#4 ∧ xOf w = x ∧ kkOf w = 0x07#8
  | .ldDtVx x => opOf w = 0xF#4 ∧ xOf w = x ∧ kkOf w = 0x15#8
  | .ldStVx x => opOf w = 0xF#4 ∧ xOf w = x ∧ kkOf w = 0x18#8
  | .addI x => opOf w = 0xF#4 ∧ xOf w = x ∧ kkOf w = 0x1E#8
  | .ldF x => opOf w = 0xF#4 ∧ xOf w = x ∧ kkOf w = 0x29#8
  | .ldB x => opOf w = 0xF#4 ∧ xOf w = x ∧ kkOf w = 0x33#8
  | .storeRegs x => opOf w = 0xF#4 ∧ xOf w = x ∧ kkOf w = 0x55#8
  | .loadRegs x => opOf w = 0xF#4 ∧ xOf w = x ∧ kkOf w = 0x65#8
  | .ldK x => opOf w = 0xF#4 ∧ xOf w = x ∧ kkOf w = 0x0A#8

/-- The encoder places every fixed and every operand field of the instruction. -/
def Statement (i : Instr) : Prop := At (encode i) i

theorem cls : Statement (.cls) := rfl
theorem ret : Statement (.ret) := rfl
theorem jp (nnn : Addr12) : Statement (.jp nnn) := ⟨opOf_formatA _ _, nnnOf_formatA _ _⟩
theorem call (nnn : Addr12) : Statement (.call nnn) := ⟨opOf_formatA _ _, nnnOf_formatA _ _⟩
theorem seImm (x : Nibble) (kk : Byte) : Statement (.seImm x kk) :=
  ⟨opOf_formatXK _ _ _, xOf_formatXK _ _ _, kkOf_formatXK _ _ _⟩
theorem sneImm (x : Nibble) (kk : Byte) : Statement (.sneImm x kk) :=
  ⟨opOf_formatXK _ _ _, xOf_formatXK _ _ _, kkOf_formatXK _ _ _⟩
theorem seReg (x : Nibble) (y : Nibble) : Statement (.seReg x y) :=
  ⟨opOf_formatXYN _ _ _ _, xOf_formatXYN _ _ _ _, yOf_formatXYN _ _ _ _, nOf_formatXYN _ _ _ _⟩
theorem sneReg (x : Nibble) (y : Nibble) : Statement (.sneReg x y) :=
  ⟨opOf_formatXYN _ _ _ _, xOf_formatXYN _ _ _ _, yOf_formatXYN _ _ _ _, nOf_formatXYN _ _ _ _⟩
theorem ldImm (x : Nibble) (kk : Byte) : Statement (.ldImm x kk) :=
  ⟨opOf_formatXK _ _ _, xOf_formatXK _ _ _, kkOf_formatXK _ _ _⟩
theorem addImm (x : Nibble) (kk : Byte) : Statement (.addImm x kk) :=
  ⟨opOf_formatXK _ _ _, xOf_formatXK _ _ _, kkOf_formatXK _ _ _⟩
theorem ldReg (x : Nibble) (y : Nibble) : Statement (.ldReg x y) :=
  ⟨opOf_formatXYN _ _ _ _, xOf_formatXYN _ _ _ _, yOf_formatXYN _ _ _ _, nOf_formatXYN _ _ _ _⟩
theorem orReg (x : Nibble) (y : Nibble) : Statement (.orReg x y) :=
  ⟨opOf_formatXYN _ _ _ _, xOf_formatXYN _ _ _ _, yOf_formatXYN _ _ _ _, nOf_formatXYN _ _ _ _⟩
theorem andReg (x : Nibble) (y : Nibble) : Statement (.andReg x y) :=
  ⟨opOf_formatXYN _ _ _ _, xOf_formatXYN _ _ _ _, yOf_formatXYN _ _ _ _, nOf_formatXYN _ _ _ _⟩
theorem xorReg (x : Nibble) (y : Nibble) : Statement (.xorReg x y) :=
  ⟨opOf_formatXYN _ _ _ _, xOf_formatXYN _ _ _ _, yOf_formatXYN _ _ _ _, nOf_formatXYN _ _ _ _⟩
theorem addReg (x : Nibble) (y : Nibble) : Statement (.addReg x y) :=
  ⟨opOf_formatXYN _ _ _ _, xOf_formatXYN _ _ _ _, yOf_formatXYN _ _ _ _, nOf_formatXYN _ _ _ _⟩
theorem sub (x : Nibble) (y : Nibble) : Statement (.sub x y) :=
  ⟨opOf_formatXYN _ _ _ _, xOf_formatXYN _ _ _ _, yOf_formatXYN _ _ _ _, nOf_formatXYN _ _ _ _⟩
theorem shr (x : Nibble) (y : Nibble) : Statement (.shr x y) :=
  ⟨opOf_formatXYN _ _ _ _, xOf_formatXYN _ _ _ _, yOf_formatXYN _ _ _ _, nOf_formatXYN _ _ _ _⟩
theorem subn (x : Nibble) (y : Nibble) : Statement (.subn x y) :=
  ⟨opOf_formatXYN _ _ _ _, xOf_formatXYN _ _ _ _, yOf_formatXYN _ _ _ _, nOf_formatXYN _ _ _ _⟩
theorem shl (x : Nibble) (y : Nibble) : Statement (.shl x y) :=
  ⟨opOf_formatXYN _ _ _ _, xOf_formatXYN _ _ _ _, yOf_formatXYN _ _ _ _, nOf_formatXYN _ _ _ _⟩
theorem ldI (nnn : Addr12) : Statement (.ldI nnn) := ⟨opOf_formatA _ _, nnnOf_formatA _ _⟩
theorem jpV0 (nnn : Addr12) : Statement (.jpV0 nnn) := ⟨opOf_formatA _ _, nnnOf_formatA _ _⟩
theorem rnd (x : Nibble) (kk : Byte) : Statement (.rnd x kk) :=
  ⟨opOf_formatXK _ _ _, xOf_formatXK _ _ _, kkOf_formatXK _ _ _⟩
theorem drw (x : Nibble) (y : Nibble) (n : Nibble) : Statement (.drw x y n) :=
  ⟨opOf_formatXYN _ _ _ _, xOf_formatXYN _ _ _ _, yOf_formatXYN _ _ _ _, nOf_formatXYN _ _ _ _⟩
theorem skp (x : Nibble) : Statement (.skp x) :=
  ⟨opOf_formatXK _ _ _, xOf_formatXK _ _ _, kkOf_formatXK _ _ _⟩
theorem sknp (x : Nibble) : Statement (.sknp x) :=
  ⟨opOf_formatXK _ _ _, xOf_formatXK _ _ _, kkOf_formatXK _ _ _⟩
theorem ldVxDt (x : Nibble) : Statement (.ldVxDt x) :=
  ⟨opOf_formatXK _ _ _, xOf_formatXK _ _ _, kkOf_formatXK _ _ _⟩
theorem ldDtVx (x : Nibble) : Statement (.ldDtVx x) :=
  ⟨opOf_formatXK _ _ _, xOf_formatXK _ _ _, kkOf_formatXK _ _ _⟩
theorem ldStVx (x : Nibble) : Statement (.ldStVx x) :=
  ⟨opOf_formatXK _ _ _, xOf_formatXK _ _ _, kkOf_formatXK _ _ _⟩
theorem addI (x : Nibble) : Statement (.addI x) :=
  ⟨opOf_formatXK _ _ _, xOf_formatXK _ _ _, kkOf_formatXK _ _ _⟩
theorem ldF (x : Nibble) : Statement (.ldF x) :=
  ⟨opOf_formatXK _ _ _, xOf_formatXK _ _ _, kkOf_formatXK _ _ _⟩
theorem ldB (x : Nibble) : Statement (.ldB x) :=
  ⟨opOf_formatXK _ _ _, xOf_formatXK _ _ _, kkOf_formatXK _ _ _⟩
theorem storeRegs (x : Nibble) : Statement (.storeRegs x) :=
  ⟨opOf_formatXK _ _ _, xOf_formatXK _ _ _, kkOf_formatXK _ _ _⟩
theorem loadRegs (x : Nibble) : Statement (.loadRegs x) :=
  ⟨opOf_formatXK _ _ _, xOf_formatXK _ _ _, kkOf_formatXK _ _ _⟩
theorem ldK (x : Nibble) : Statement (.ldK x) :=
  ⟨opOf_formatXK _ _ _, xOf_formatXK _ _ _, kkOf_formatXK _ _ _⟩

end Sys2Proof.Laws.FieldsPlaced
end

