-- ==== Sys2Proof/Tests/Slice0.lean ====
section
/-!
SUPPORT. The model's own tests: what is ill formed is refused, the words of the spec decode, one step of each
instruction gives what 95_test_vectors says (the vector is named at each test), and for each statement with
hypotheses a state and operands that meet them.
-/

open Sys2Proof Sys2Proof.Machine

namespace Sys2Proof.Tests

/-- `s` with the word `w` where `PC` points. -/
def place (w : Word) (s : State) : State :=
  writeByte (writeByte s s.pc (highByte w)) (s.pc + 1) (lowByte w)

/-- `s` with some registers set. -/
def regs (l : List (Nibble × Byte)) (s : State) : State := l.foldl (fun s p => writeV s p.1 p.2) s

/-- `s` with some bytes of memory set. -/
def bytes (l : List (Word × Byte)) (s : State) : State := l.foldl (fun s p => writeByte s p.1 p.2) s

/-- `s` with some pixels lit. -/
def lit (l : List (Fin 32 × Fin 64)) (s : State) : State :=
  { s with fb := l.foldl (fun fb p => setPixel fb p.1 p.2 true) s.fb }

/-- Which of the listed pixels are lit. -/
def pixels (l : List (Fin 32 × Fin 64)) (t : State) : List Bool := l.map fun p => pixel t.fb p.1 p.2

/-- `s` about to execute the word `w` in a step given the event `e`. -/
def ready (e : Event) (w : Word) (s : State) : State := { place w s with calls := [.step e] }

/-- The next state, if the outcome is one. -/
def after (o : Host.Outcome State Fault Refusal) : Option State :=
  match o with
  | .next t => some t
  | .fault _ => none
  | .refused _ => none

/-- The state after one step that executes `w` from `s` with the event `e`. -/
def run (e : Event) (w : Word) (s : State) : Option State := after (step (ready e w s))

/-- Reset with `I` set. -/
def withI (a : Word) : State := writeI State.reset a

/-- A machine that has faulted. -/
def faulted : State := { State.reset with fault := some (.stackUnderflow 0x0200#16) }

theorem exists_next_of_after {o : Host.Outcome State Fault Refusal} (h : (after o).isSome = true) :
    ∃ t, o = .next t := by
  cases o with
  | next t => exact ⟨t, rfl⟩
  | fault _ => simp [after] at h
  | refused _ => simp [after] at h

/-! ## Well-formedness: the one check there is -/

/-- An image one byte too long is ill formed (R241). -/
theorem test_wf_refuses_long_image : HostCall.wf (.reset (List.replicate 3585 0x00#8)) = false := by decide +kernel

/-- The longest image is well formed (R241). -/
theorem test_wf_accepts_full_image : HostCall.wf (.reset (List.replicate 3584 0x00#8)) = true := by decide +kernel

/-! ## Decoding: a word for every constructor, from the table of R66 and the vectors -/

theorem test_decode_cls : decodeWord 0x00E0#16 = .ok .cls := by decide
theorem test_decode_ret : decodeWord 0x00EE#16 = .ok .ret := by decide
theorem test_decode_jp : decodeWord 0x1FFF#16 = .ok (.jp 0xFFF#12) := by decide
theorem test_decode_call : decodeWord 0x2ABC#16 = .ok (.call 0xABC#12) := by decide
theorem test_decode_seImm : decodeWord 0x3F01#16 = .ok (.seImm 0xF#4 0x01#8) := by decide
theorem test_decode_sneImm : decodeWord 0x40FF#16 = .ok (.sneImm 0x0#4 0xFF#8) := by decide
theorem test_decode_seReg : decodeWord 0x5120#16 = .ok (.seReg 0x1#4 0x2#4) := by decide
theorem test_decode_ldImm : decodeWord 0x6A2F#16 = .ok (.ldImm 0xA#4 0x2F#8) := by decide
theorem test_decode_addImm : decodeWord 0x70FF#16 = .ok (.addImm 0x0#4 0xFF#8) := by decide
theorem test_decode_ldReg : decodeWord 0x8F10#16 = .ok (.ldReg 0xF#4 0x1#4) := by decide
theorem test_decode_orReg : decodeWord 0x8231#16 = .ok (.orReg 0x2#4 0x3#4) := by decide
theorem test_decode_andReg : decodeWord 0x8232#16 = .ok (.andReg 0x2#4 0x3#4) := by decide
theorem test_decode_xorReg : decodeWord 0x8233#16 = .ok (.xorReg 0x2#4 0x3#4) := by decide
theorem test_decode_addReg : decodeWord 0x80F4#16 = .ok (.addReg 0x0#4 0xF#4) := by decide
theorem test_decode_sub : decodeWord 0x8F15#16 = .ok (.sub 0xF#4 0x1#4) := by decide
theorem test_decode_shr : decodeWord 0x80A6#16 = .ok (.shr 0x0#4 0xA#4) := by decide
theorem test_decode_subn : decodeWord 0x8237#16 = .ok (.subn 0x2#4 0x3#4) := by decide
theorem test_decode_shl : decodeWord 0x8F0E#16 = .ok (.shl 0xF#4 0x0#4) := by decide
theorem test_decode_sneReg : decodeWord 0x9120#16 = .ok (.sneReg 0x1#4 0x2#4) := by decide
theorem test_decode_ldI : decodeWord 0xA2F0#16 = .ok (.ldI 0x2F0#12) := by decide
theorem test_decode_jpV0 : decodeWord 0xB300#16 = .ok (.jpV0 0x300#12) := by decide
theorem test_decode_rnd : decodeWord 0xC30F#16 = .ok (.rnd 0x3#4 0x0F#8) := by decide
theorem test_decode_drw : decodeWord 0xDF12#16 = .ok (.drw 0xF#4 0x1#4 0x2#4) := by decide
theorem test_decode_skp : decodeWord 0xE29E#16 = .ok (.skp 0x2#4) := by decide
theorem test_decode_sknp : decodeWord 0xE2A1#16 = .ok (.sknp 0x2#4) := by decide
theorem test_decode_ldVxDt : decodeWord 0xF407#16 = .ok (.ldVxDt 0x4#4) := by decide
theorem test_decode_ldK : decodeWord 0xF30A#16 = .ok (.ldK 0x3#4) := by decide
theorem test_decode_ldDtVx : decodeWord 0xF415#16 = .ok (.ldDtVx 0x4#4) := by decide
theorem test_decode_ldStVx : decodeWord 0xF418#16 = .ok (.ldStVx 0x4#4) := by decide
theorem test_decode_addI : decodeWord 0xF31E#16 = .ok (.addI 0x3#4) := by decide
theorem test_decode_ldF : decodeWord 0xFA29#16 = .ok (.ldF 0xA#4) := by decide
theorem test_decode_ldB : decodeWord 0xF033#16 = .ok (.ldB 0x0#4) := by decide
theorem test_decode_storeRegs : decodeWord 0xF255#16 = .ok (.storeRegs 0x2#4) := by decide
theorem test_decode_loadRegs : decodeWord 0xF265#16 = .ok (.loadRegs 0x2#4) := by decide

/-- Illegal words of all six classes (V-FLOW-17 to V-FLOW-19, V-ALU-35, V-KEY-10, V-MEM-18). -/
theorem test_decode_refuses :
    [0x0000#16, 0x00E1#16, 0x0123#16, 0x00FF#16, 0x0EE0#16, 0x5121#16, 0x9121#16, 0x8018#16, 0x801F#16,
      0xE29F#16, 0xE200#16, 0xE2A0#16, 0xF000#16, 0xF034#16, 0xF0FF#16, 0xF0A2#16].map decodeWord =
    [.error .family0, .error .family0, .error .family0, .error .family0, .error .family0, .error .family5,
      .error .family9, .error .family8, .error .family8, .error .familyE, .error .familyE, .error .familyE,
      .error .familyF, .error .familyF, .error .familyF, .error .familyF] := by decide

/-- One byte is no word, and the byte at the lower address is the high one (R43, S10). -/
theorem test_decode_bytes :
    decode [0xA2#8] = .error .truncated ∧
      decode [0xA2#8, 0xF0#8, 0x12#8] = .ok (.ldI 0x2F0#12, [0x12#8]) := by decide

/-- The words of the opcode table are read with bit 0 as their lowest bit. -/
theorem test_decode_table_word : decodeTableWord 16 0xD123 = some (.drw 0x1#4 0x2#4 0x3#4) := by decide

/-- From reset with a word placed, the very next step runs it: `LD VA,0x2F` (V-IMM-1). -/
theorem test_withFetchWord :
    (after (step (State.reset.withFetchWord 16 0x6A2F))).map (fun t => (readV t 0xA#4, t.pc, t.calls)) =
      some (0x2F#8, 0x0202#16, []) := by decide

/-! ## Screen and flow -/

/-- V-FLOW-1. -/
theorem test_cls : (run .none 0x00E0#16 { State.reset with fb := Vector.replicate 32 (BitVec.allOnes 64) }).map
    (fun t => (t.fb, t.pc, t.reply)) = some (blankScreen, 0x0202#16, .outcome (.redraw blankScreen)) := by decide

/-- V-FLOW-3. -/
theorem test_ret : (run .none 0x00EE#16 { State.reset with
      pc := 0x0300#16, sp := 2, stack := (State.reset.stack.set 0 0x0208#16).set 1 0x1000#16 }).map
    (fun t => (t.pc, t.sp, t.fault)) = some (0x1000#16, 1, none) := by decide

/-- V-FLOW-4. -/
theorem test_ret_underflow : (run .none 0x00EE#16 State.reset).map (fun t => (t.pc, t.sp, t.fault, t.reply)) =
    some (0x0200#16, 0, some (.stackUnderflow 0x0200#16), .fault (.stackUnderflow 0x0200#16)) := by decide

/-- V-FLOW-5. -/
theorem test_jp : (run .none 0x1FFF#16 { State.reset with pc := 0x0FFE#16 }).map (fun t => t.pc) =
    some 0x0FFF#16 := by decide

/-- V-FLOW-7: the last free entry. -/
theorem test_call : (run .none 0x2ABC#16 { State.reset with pc := 0x0FFE#16, sp := 15 }).map
    (fun t => (t.stack[15], t.sp, t.pc)) = some (0x1000#16, 16, 0x0ABC#16) := by decide

/-- V-FLOW-8. -/
theorem test_call_overflow : (run .none 0x2ABC#16 { State.reset with sp := 16 }).map
    (fun t => (t.fault, t.sp, t.pc, t.stack)) =
      some (some (.stackOverflow 0x0200#16), 16, 0x0200#16, Vector.replicate 16 0x0000#16) := by decide

/-- V-FLOW-10: the skip wraps. -/
theorem test_seImm : (run .none 0x3000#16 { State.reset with pc := 0xFFFC#16 }).map (fun t => t.pc) =
    some 0x0000#16 := by decide

/-- V-FLOW-11 and V-FLOW-12. -/
theorem test_sneImm : [0x4000#16, 0x40FF#16].map (fun w => (run .none w State.reset).map (fun t => t.pc)) =
    [some 0x0202#16, some 0x0204#16] := by decide

/-- V-FLOW-13. -/
theorem test_seReg : (run .none 0x5120#16 (regs [(0x1#4, 0x07#8), (0x2#4, 0x07#8)] State.reset)).map
    (fun t => t.pc) = some 0x0204#16 := by decide

/-- V-FLOW-15. -/
theorem test_sneReg : (run .none 0x9120#16 (regs [(0x1#4, 0x07#8), (0x2#4, 0x07#8)] State.reset)).map
    (fun t => t.pc) = some 0x0202#16 := by decide

/-! ## Immediate moves and the ALU -/

/-- V-IMM-2: `VF` takes any byte. -/
theorem test_ldImm : (run .none 0x6FAB#16 State.reset).map (fun t => readV t 0xF#4) = some 0xAB#8 := by decide

/-- V-IMM-3: wraps, no flag. -/
theorem test_addImm : (run .none 0x7001#16 (regs [(0x0#4, 0xFF#8)] State.reset)).map
    (fun t => (readV t 0x0#4, readV t 0xF#4)) = some (0x00#8, 0x00#8) := by decide

/-- V-IMM-5: the sum, no flag write. -/
theorem test_addImm_flag : (run .none 0x7F01#16 (regs [(0xF#4, 0xFF#8)] State.reset)).map
    (fun t => readV t 0xF#4) = some 0x00#8 := by decide

/-- `V0`, `V1` and `VF` before; `V0` and `VF` after one ALU word. -/
def alu (w : Word) (v0 v1 vf : Byte) : Option (Byte × Byte) :=
  (run .none w (regs [(0x0#4, v0), (0x1#4, v1), (0xF#4, vf)] State.reset)).map
    fun t => (readV t 0x0#4, readV t 0xF#4)

/-- V-ALU-1 and V-ALU-27. -/
theorem test_ldReg : [alu 0x8010#16 0x01#8 0x9C#8 0x55#8, alu 0x8F10#16 0x00#8 0x9C#8 0x55#8] =
    [some (0x9C#8, 0x55#8), some (0x00#8, 0x9C#8)] := by decide

/-- V-ALU-2. -/
theorem test_orReg : alu 0x8011#16 0xF0#8 0x0F#8 0x55#8 = some (0xFF#8, 0x55#8) := by decide

/-- V-ALU-3. -/
theorem test_andReg : alu 0x8012#16 0xF3#8 0x3C#8 0x55#8 = some (0x30#8, 0x55#8) := by decide

/-- V-ALU-4 and V-ALU-5. -/
theorem test_xorReg : [alu 0x8013#16 0xFF#8 0x0F#8 0x55#8, alu 0x8003#16 0xA5#8 0x00#8 0x55#8] =
    [some (0xF0#8, 0x55#8), some (0x00#8, 0x55#8)] := by decide

/-- V-ALU-6, V-ALU-7, V-ALU-18. -/
theorem test_addReg : [alu 0x8014#16 0xFF#8 0x01#8 0x55#8, alu 0x8014#16 0xF0#8 0x0F#8 0x55#8,
      alu 0x8004#16 0x80#8 0x00#8 0x00#8] =
    [some (0x00#8, 0x01#8), some (0xFF#8, 0x00#8), some (0x00#8, 0x01#8)] := by decide

/-- V-ALU-19, V-ALU-20: `VF` as an operand. -/
theorem test_addReg_flag : [alu 0x80F4#16 0x10#8 0x00#8 0x07#8, alu 0x8F14#16 0x00#8 0x03#8 0xFF#8] =
    [some (0x17#8, 0x00#8), some (0x00#8, 0x01#8)] := by decide

/-- V-ALU-8 to V-ALU-10. -/
theorem test_sub : [alu 0x8015#16 0x0A#8 0x03#8 0x00#8, alu 0x8015#16 0x07#8 0x07#8 0x55#8,
      alu 0x8015#16 0x03#8 0x0A#8 0x00#8] =
    [some (0x07#8, 0x01#8), some (0x00#8, 0x00#8), some (0xF9#8, 0x00#8)] := by decide

/-- V-ALU-21, V-ALU-22, V-ALU-34. -/
theorem test_sub_flag : [alu 0x8F15#16 0x00#8 0x02#8 0x09#8, alu 0x8F15#16 0x00#8 0x09#8 0x02#8,
      alu 0x8005#16 0x33#8 0x00#8 0x01#8] =
    [some (0x00#8, 0x01#8), some (0x00#8, 0x00#8), some (0x00#8, 0x00#8)] := by decide

/-- V-ALU-11, V-ALU-12. -/
theorem test_shr : [alu 0x8016#16 0x05#8 0xFF#8 0x00#8, alu 0x80A6#16 0x01#8 0x00#8 0x00#8] =
    [some (0x02#8, 0x01#8), some (0x00#8, 0x01#8)] := by decide

/-- V-ALU-23, V-ALU-24. -/
theorem test_shr_flag : [alu 0x8F06#16 0x00#8 0x00#8 0x04#8, alu 0x8F06#16 0x00#8 0x00#8 0x03#8] =
    [some (0x00#8, 0x00#8), some (0x00#8, 0x01#8)] := by decide

/-- V-ALU-13 to V-ALU-15, V-ALU-32. -/
theorem test_subn : [alu 0x8017#16 0x03#8 0x0A#8 0x00#8, alu 0x8017#16 0x07#8 0x07#8 0x55#8,
      alu 0x8017#16 0x0A#8 0x03#8 0x00#8, alu 0x8017#16 0x01#8 0x00#8 0x00#8] =
    [some (0x07#8, 0x01#8), some (0x00#8, 0x00#8), some (0xF9#8, 0x00#8), some (0xFF#8, 0x00#8)] := by decide

/-- V-ALU-16, V-ALU-17. -/
theorem test_shl : [alu 0x801E#16 0x81#8 0xFF#8 0x00#8, alu 0x801E#16 0x7F#8 0x00#8 0x00#8] =
    [some (0x02#8, 0x01#8), some (0xFE#8, 0x00#8)] := by decide

/-- V-ALU-25, V-ALU-26. -/
theorem test_shl_flag : [alu 0x8F0E#16 0x00#8 0x00#8 0x81#8, alu 0x8F0E#16 0x00#8 0x00#8 0x41#8] =
    [some (0x00#8, 0x01#8), some (0x00#8, 0x00#8)] := by decide

/-! ## Index, computed jump, random -/

/-- V-IDX-1. -/
theorem test_ldI : (run .none 0xAFFF#16 (withI 0x1234#16)).map (fun t => t.i) = some 0x0FFF#16 := by decide

/-- V-IDX-3, V-IDX-4: not reduced, and odd. -/
theorem test_jpV0 : [(run .none 0xBFFF#16 (regs [(0x0#4, 0x02#8)] State.reset)).map (fun t => t.pc),
      (run .none 0xB200#16 (regs [(0x0#4, 0xFF#8)] State.reset)).map (fun t => t.pc)] =
    [some 0x1001#16, some 0x02FF#16] := by decide

/-- V-IDX-6: with the mask 0 whatever was drawn. -/
theorem test_rnd : ∃ t, exec (.rnd 0x0#4 0x00#8) State.reset = .next t ∧ readV t 0x0#4 = 0x00#8 ∧ t.draws = 1 :=
  ⟨_, rfl, by show Config.rand 0 &&& 0x00#8 = 0x00#8; simp, rfl⟩

/-! ## Draw -/

/-- V-DRW-3: wraps in the row. -/
theorem test_drw_wraps : (run .none 0xD011#16 (bytes [(0x0300#16, 0xFF#8)] (regs [(0x0#4, 0x3F#8)]
      (withI 0x0300#16)))).map
    (fun t => (pixels [(0, 63), (0, 0), (0, 6), (0, 7), (0, 62), (1, 0)] t, readV t 0xF#4)) =
      some ([true, true, true, false, false, false], 0x00#8) := by decide +kernel

/-- V-DRW-7 and V-DRW-12: one pixel of two collides, and the row from the old `VF`. -/
theorem test_drw_collides : [(run .none 0xD011#16 (bytes [(0x0300#16, 0xC0#8)] (lit [(0, 1)]
        (withI 0x0300#16)))).map (fun t => (pixels [(0, 0), (0, 1)] t, readV t 0xF#4)),
      (run .none 0xD0F1#16 (bytes [(0x0300#16, 0x80#8)] (lit [(3, 2)] (regs [(0xF#4, 0x03#8),
        (0x0#4, 0x02#8)] (withI 0x0300#16))))).map (fun t => (pixels [(3, 2)] t, readV t 0xF#4))] =
    [some ([true, false], 0x01#8), some ([false], 0x01#8)] := by decide +kernel

/-! ## Keys and timers -/

/-- V-KEY-1 to V-KEY-4, V-KEY-9. -/
theorem test_skp : [(Event.none, 0x05#8), (.keyPress 0x5#4, 0x05#8), (.keyPress 0x4#4, 0x05#8),
      (.keyResolved 0x5#4, 0x05#8), (.keyPress 0xA#4, 0x1A#8)].map (fun p =>
        (run p.1 0xE29E#16 (regs [(0x2#4, p.2)] State.reset)).map (fun t => t.pc)) =
    [some 0x0202#16, some 0x0204#16, some 0x0202#16, some 0x0202#16, some 0x0204#16] := by decide

/-- V-KEY-5 to V-KEY-8. -/
theorem test_sknp : [Event.none, .keyPress 0x5#4, .keyPress 0x4#4, .keyResolved 0x5#4].map (fun e =>
        (run e 0xE2A1#16 (regs [(0x2#4, 0x05#8)] State.reset)).map (fun t => t.pc)) =
    [some 0x0204#16, some 0x0202#16, some 0x0204#16, some 0x0204#16] := by decide

/-- V-TMR-1. -/
theorem test_ldVxDt : (run .none 0xF407#16 (writeDt State.reset 0x3C#8)).map (fun t => (readV t 0x4#4, t.dt)) =
    some (0x3C#8, 0x3C#8) := by decide

/-- V-TMR-2. -/
theorem test_ldDtVx : (run .none 0xF415#16 (regs [(0x4#4, 0x3C#8)] State.reset)).map (fun t => (t.dt, t.st)) =
    some (0x3C#8, 0x00#8) := by decide

/-- V-TMR-3. -/
theorem test_ldStVx : (run .none 0xF418#16 (regs [(0x4#4, 0x02#8)] State.reset)).map (fun t => (t.dt, t.st)) =
    some (0x00#8, 0x02#8) := by decide

/-- V-TMR-6 and V-TMR-7: a tick, and no timer goes below 0. -/
theorem test_tick : [(0xFF#8, 0x01#8), (0x00#8, 0x00#8)].map (fun p =>
        (after (step { writeSt (writeDt State.reset p.1) p.2 with calls := [.tick] })).map
          (fun t => (t.dt, t.st, t.pc, t.reply))) =
    [some (0xFE#8, 0x00#8, 0x0200#16, .nothing), some (0x00#8, 0x00#8, 0x0200#16, .nothing)] := by decide

/-! ## Index memory -/

/-- V-MEM-3, V-MEM-4. -/
theorem test_addI : [(run .none 0xF31E#16 (regs [(0x3#4, 0x02#8)] (withI 0xFFFF#16))).map
        (fun t => (t.i, readV t 0xF#4)),
      (run .none 0xFF1E#16 (regs [(0xF#4, 0xFF#8)] (withI 0x0F01#16))).map (fun t => (t.i, readV t 0xF#4))] =
    [some (0x0001#16, 0x00#8), some (0x1000#16, 0xFF#8)] := by decide

/-- V-MEM-6, V-MEM-7. -/
theorem test_ldF : [(run .none 0xFA29#16 (regs [(0xA#4, 0x1A#8)] State.reset)).map (fun t => t.i),
      (run .none 0xF029#16 (regs [(0x0#4, 0xFF#8)] State.reset)).map (fun t => t.i)] =
    [some 0x0032#16, some 0x004B#16] := by decide

/-- V-MEM-9: 0, 7, 99, 100, 255. -/
theorem test_ldB : [0x00#8, 0x07#8, 0x63#8, 0x64#8, 0xFF#8].map (fun b =>
      (run .none 0xF033#16 (regs [(0x0#4, b)] (withI 0x0300#16))).map
        (fun t => [readByte t 0x0300#16, readByte t 0x0301#16, readByte t 0x0302#16])) =
    [some [0#8, 0#8, 0#8], some [0#8, 0#8, 7#8], some [0#8, 9#8, 9#8], some [1#8, 0#8, 0#8],
      some [2#8, 5#8, 5#8]] := by decide

/-- V-MEM-11: wraps into the font, `I` kept. -/
theorem test_ldB_wraps : (run .none 0xF033#16 (regs [(0x0#4, 0xF6#8)] (withI 0xFFFF#16))).map
    (fun t => ([readByte t 0x0FFF#16, readByte t 0x0000#16, readByte t 0x0001#16], t.i)) =
      some ([2#8, 4#8, 6#8], 0xFFFF#16) := by decide

/-- V-MEM-12: `x` included, the next byte untouched. -/
theorem test_storeRegs : (run .none 0xF255#16 (regs [(0x0#4, 0x02#8), (0x1#4, 0x03#8), (0x2#4, 0x04#8),
      (0x3#4, 0x09#8)] (withI 0x0303#16))).map
    (fun t => ([readByte t 0x0303#16, readByte t 0x0304#16, readByte t 0x0305#16, readByte t 0x0306#16], t.i)) =
      some ([2#8, 3#8, 4#8, 0#8], 0x0303#16) := by decide

/-- V-MEM-14, the bytes on both sides of the wrap. -/
theorem test_storeRegs_wraps : (run .none 0xFF55#16 (regs [(0x0#4, 0x10#8), (0x7#4, 0x17#8), (0x8#4, 0x18#8),
      (0xF#4, 0x1F#8)] (withI 0x0FF8#16))).map
    (fun t => ([readByte t 0x0FF8#16, readByte t 0x0FFF#16, readByte t 0x0000#16, readByte t 0x0007#16], t.mem.wf t.font)) =
      some ([0x10#8, 0x17#8, 0x18#8, 0x1F#8], true) := by decide

/-- V-MEM-15: `x` included, the next register untouched. -/
theorem test_loadRegs : (run .none 0xF265#16 (regs [(0x3#4, 0x77#8)] (bytes [(0x0300#16, 2#8),
      (0x0301#16, 3#8), (0x0302#16, 4#8), (0x0303#16, 5#8)] (withI 0x0300#16)))).map
    (fun t => ([readV t 0x0#4, readV t 0x1#4, readV t 0x2#4, readV t 0x3#4], t.i)) =
      some ([2#8, 3#8, 4#8, 0x77#8], 0x0300#16) := by decide

/-- V-MEM-16: the first bytes of the font, `VF` included. -/
theorem test_loadRegs_font : (run .none 0xFF65#16 State.reset).map
    (fun t => [readV t 0x0#4, readV t 0x1#4, readV t 0x4#4, readV t 0x5#4, readV t 0xF#4]) =
      some [0xF0#8, 0x90#8, 0xF0#8, 0x20#8, 0xF0#8] := by decide

/-- With another font table the same load gives that table's bytes, and a reset call brings them back (R5,
R240). -/
theorem test_font_is_a_parameter :
    let s := State.resetWith (Vector.replicate 80 0xAA#8)
    [run .none 0xF165#16 s, (after (step { bytes [(0x0000#16, 0x11#8)] s with calls := [.reset []] })).bind
      (run .none 0xF165#16)].map (fun o => o.map (fun t => [readV t 0x0#4, readV t 0x1#4])) =
    [some [0xAA#8, 0xAA#8], some [0xAA#8, 0xAA#8]] := by decide

/-! ## Await key -/

/-- V-KW-1, V-KW-2. -/
theorem test_ldK_waits : [Event.none, .keyPress 0x7#4].map (fun e => (run e 0xF30A#16 State.reset).map
      (fun t => (t.reply, t.pc, readV t 0x3#4))) =
    [some (.outcome .awaitKey, 0x0200#16, 0x00#8), some (.outcome .awaitKey, 0x0200#16, 0x00#8)] := by decide

/-- V-KW-4, V-KW-5. -/
theorem test_ldK_resolves : [(run (.keyResolved 0xF#4) 0xF30A#16 (regs [(0x3#4, 0xAA#8)] State.reset)).map
        (fun t => (readV t 0x3#4, t.pc, t.reply)),
      (run (.keyResolved 0x1#4) 0xFF0A#16 State.reset).map (fun t => (readV t 0xF#4, t.pc, t.reply))] =
    [some (0x0F#8, 0x0202#16, .outcome .none), some (0x01#8, 0x0202#16, .outcome .none)] := by decide

/-! ## Fetch, faults and reset -/

/-- V-FET-1: the word wraps around the top of memory into the font. -/
theorem test_fetch_wraps : (after (step { bytes [(0x0FFF#16, 0x60#8)] State.reset with
      pc := 0x0FFF#16, calls := [.step .none] })).map (fun t => (readV t 0x0#4, t.pc)) =
    some (0xF0#8, 0x1001#16) := by decide

/-- R52: a store into one byte of the next instruction changes its lower half only, by `LD [I],V0` of 0x07 into
the word 0x6A2F. -/
theorem test_store_into_half_of_next : (run .none 0xF055#16 (regs [(0x0#4, 0x07#8)]
      (bytes [(0x0202#16, 0x6A#8), (0x0203#16, 0x2F#8)] (withI 0x0203#16)))).map fetchWord =
    some 0x6A07#16 := by decide

/-- V-FET-3: an odd `PC`. -/
theorem test_fetch_odd : (after (step { bytes [(0x0201#16, 0x62#8), (0x0202#16, 0x09#8)] State.reset with
      pc := 0x0201#16, calls := [.step .none] })).map (fun t => (readV t 0x2#4, t.pc)) =
    some (0x09#8, 0x0203#16) := by decide

/-- V-FLOW-17. -/
theorem test_decode_failure : (run .none 0x5121#16 State.reset).map (fun t => (t.fault, t.pc)) =
    some (some (.decodeFailure 0x5121#16 0x0200#16), 0x0200#16) := by decide

/-- P5a, its image loaded by a reset call of a faulted machine: the bytes at 0x200 and the clean state. -/
theorem test_reset_call : (after (step { faulted with calls := [.reset [0x60#8, 0x01#8]] })).map
    (fun t => (t.mem, t.pc, t.fault)) =
      some ([(0x200, 0x60#8), (0x201, 0x01#8)], 0x0200#16, none) := by decide

/-- After a fault neither `step` nor `tick` exists (R205). -/
theorem test_halted : [HostCall.step .none, .tick].map (fun c => (after (step { faulted with calls := [c] })).isSome) =
    [false, false] := by decide

/-! ## The hypotheses of the statements can be met -/

theorem test_meets_EncodeOfDecode : decodeWord 0x80A6#16 = .ok (.shr 0x0#4 0xA#4) := by decide

/-- The longest image; a first and a last byte; an address below it and none above. -/
theorem test_meets_ResetCallLoadsImage :
    nextCall { faulted with calls := [.reset (List.replicate 3584 0x12#8)] } =
      .reset (List.replicate 3584 0x12#8) ∧
    (List.replicate 3584 0x12#8).length ≤ 3584 ∧ 3583 < (List.replicate 3584 0x12#8).length ∧
    ¬ (0x200 ≤ physical 0x01FF#16 ∧ physical 0x01FF#16 < 0x200 + (List.replicate 3584 0x12#8).length) :=
  ⟨rfl, by decide +kernel, by decide +kernel, by decide +kernel⟩

theorem test_meets_LongImageIsRefused :
    nextCall { State.reset with calls := [.reset (List.replicate 3585 0x00#8)] } =
      .reset (List.replicate 3585 0x00#8) ∧ 3584 < (List.replicate 3585 0x00#8).length := ⟨rfl, by decide +kernel⟩

theorem test_meets_StepRunsTheDecodedInstruction :
    nextCall (ready (.keyPress 0x5#4) 0xE29E#16 State.reset) = .step (.keyPress 0x5#4) ∧
    (ready (.keyPress 0x5#4) 0xE29E#16 State.reset).fault = none ∧ (Instr.skp 0x2#4).wf = true ∧
    decodeWord (fetchWord (ready (.keyPress 0x5#4) 0xE29E#16 State.reset)) = .ok (.skp 0x2#4) :=
  ⟨rfl, rfl, rfl, by decide⟩

/-- A word of class (d), for both clauses. -/
theorem test_meets_IllegalWordFaults :
    nextCall (ready .none 0x8018#16 State.reset) = .step .none ∧
    (ready .none 0x8018#16 State.reset).fault = none ∧
    (∀ i, decodeWord (fetchWord (ready .none 0x8018#16 State.reset)) ≠ .ok i) ∧
    (run .none 0x8018#16 State.reset).map (fun t => t.fault) =
      some (some (.decodeFailure 0x8018#16 0x0200#16)) := by
  refine ⟨rfl, rfl, fun i h => ?_, by decide⟩
  have e : decodeWord (fetchWord (ready .none 0x8018#16 State.reset)) = .error .family8 := by decide
  rw [e] at h
  cases h

/-- A full and an empty stack, and the reset call that may follow a fault. -/
theorem test_meets_StackFaultsChangeNothing :
    ({ State.reset with sp := 16 } : State).sp.val = 16 ∧ State.reset.sp.val = 0 ∧
    ∃ u, step { faulted with calls := [.reset []] } = .next u :=
  ⟨rfl, rfl, exists_next_of_after (by decide)⟩

/-- Each of the three faults comes out of a step of a machine that has not faulted. -/
theorem test_meets_OnlyThreeFaults :
    [run .none 0x0000#16 State.reset, run .none 0x2ABC#16 { State.reset with sp := 16 },
      run .none 0x00EE#16 State.reset].map (fun o => o.map (fun t => t.fault)) =
    [some (some (.decodeFailure 0x0000#16 0x0200#16)), some (some (.stackOverflow 0x0200#16)),
      some (some (.stackUnderflow 0x0200#16))] := by decide

/-- A faulted machine before each of the three calls; the reset answers. -/
theorem test_meets_OnlyResetLeavesAFault :
    faulted.fault = some (.stackUnderflow 0x0200#16) ∧
    nextCall { faulted with calls := [.step (.keyResolved 0x7#4)] } = .step (.keyResolved 0x7#4) ∧
    nextCall { faulted with calls := [.tick] } = .tick ∧
    ∃ t, step { faulted with calls := [.reset []] } = .next t :=
  ⟨rfl, rfl, rfl, exists_next_of_after (by decide)⟩

theorem test_meets_FetchDependsOnPcModulo4096 : (0x1200#16).toNat % 4096 = State.reset.pc.toNat % 4096 := rfl

/-- Two bytes stored over the whole next word (the addresses one turn apart), over its low half only and over its
high half only: each clause of `FetchSees` applies somewhere. -/
theorem test_meets_StoreIsSeenByTheNextFetch :
    let hits := fun (i : Word) (k : Nat) (d : Word) =>
      decide (physical (i + BitVec.ofNat 16 k) = physical (State.reset.pc + d))
    hits 0x1202#16 0 2 = true ∧ hits 0x1202#16 1 3 = true ∧
      hits 0x0203#16 0 3 = true ∧ hits 0x0203#16 0 2 = false ∧ hits 0x0203#16 1 2 = false ∧
      hits 0x0201#16 1 2 = true ∧ hits 0x0201#16 0 3 = false ∧ hits 0x0201#16 1 3 = false := by decide

theorem test_meets_TickDecrementsTimers :
    nextCall { State.reset with calls := [.tick] } = .tick ∧ State.reset.fault = none := ⟨rfl, rfl⟩

theorem test_meets_TicksSaturateAtZero : State.reset.fault = none ∧
    ({ State.reset with calls := [.tick, .tick, .tick, .step .none] } : State).calls =
      List.replicate 3 HostCall.tick ++ [.step .none] := ⟨rfl, rfl⟩

/-- One address saved and all sixteen. -/
theorem test_meets_ReturnPopsTheTop : ({ State.reset with sp := 1 } : State).sp.val = 0 + 1 ∧
    ({ State.reset with sp := 16 } : State).sp.val = 15 + 1 := ⟨rfl, rfl⟩

/-- An empty stack, the last free entry, and another entry that stays. -/
theorem test_meets_CallPushesTheReturnAddress : State.reset.sp.val < 16 ∧
    ({ State.reset with sp := 15 } : State).sp.val < 16 ∧ (14 : Fin 16).val ≠ 15 := by decide

/-- The state right after the call is one that keeps its stack. -/
theorem test_meets_CallThenRetReturns : ({ State.reset with sp := 15 } : State).sp.val < 16 ∧
    ∀ t, StackKept t t := ⟨by decide, fun _ => ⟨rfl, fun _ => rfl⟩⟩

/-- A destination that is not `VF`, for `AddWithCarry`, `SubtractBothWays` and `ShiftByOne`. -/
theorem test_meets_result_not_flag : (0xE#4 : Nibble) ≠ 0xF#4 := by decide

/-- The last bit of a sprite that wraps both ways, and a pixel no bit of it lands on. -/
theorem test_meets_DrawFlipsTheSpritePixels :
    let s := regs [(0x0#4, 0x3F#8), (0x1#4, 0x1F#8)] State.reset
    1 < (0x2#4).toNat ∧ (0 : Fin 32).val = ((readV s 0x1#4).toNat + 1) % 32 ∧
      (6 : Fin 64).val = ((readV s 0x0#4).toNat + 7) % 64 ∧
      ∀ row < (0x2#4).toNat, ∀ col < 8, ¬ ((0 : Fin 32).val = ((readV s 0x1#4).toNat + row) % 32 ∧
        (7 : Fin 64).val = ((readV s 0x0#4).toNat + col) % 64) := by decide

/-- A sprite bit on a pixel. -/
theorem test_meets_DrawSetsTheCollisionFlag : 0 < (0xF#4).toNat ∧
    (0 : Fin 32).val = ((readV State.reset 0x1#4).toNat + 0) % 32 ∧
    (7 : Fin 64).val = ((readV State.reset 0x0#4).toNat + 7) % 64 := by decide

/-- Registers other than `VF`, and a screen with no pixel lit. -/
theorem test_meets_DrawTwiceRestores : (0x0#4 : Nibble) ≠ 0xF#4 ∧ (0x1#4 : Nibble) ≠ 0xF#4 ∧
    ∀ (r : Fin 32) (c : Fin 64), pixel State.reset.fb r c = false := by decide

/-- The key the register asks for, and three events that do not hold it. -/
theorem test_meets_SkipOnKey :
    (∃ k, ({ State.reset with event := .keyPress 0x0#4 } : State).event = .keyPress k ∧
      k.toNat = (readV State.reset 0x2#4).toNat % 16) ∧
    (¬ ∃ k, State.reset.event = .keyPress k ∧ k.toNat = (readV State.reset 0x2#4).toNat % 16) ∧
    (¬ ∃ k, ({ State.reset with event := .keyResolved 0x0#4 } : State).event = .keyPress k ∧
      k.toNat = (readV State.reset 0x2#4).toNat % 16) :=
  ⟨⟨0x0#4, rfl, by decide⟩, (fun ⟨_, h, _⟩ => by cases h), (fun ⟨_, h, _⟩ => by cases h)⟩

theorem test_meets_AwaitKeyResolves :
    ({ State.reset with event := .keyResolved 0xF#4 } : State).event = .keyResolved 0xF#4 := rfl

/-- No event and a held key. -/
theorem test_meets_AwaitKeyWaits : (∀ k, State.reset.event ≠ .keyResolved k) ∧
    ∀ k, ({ State.reset with event := .keyPress 0x7#4 } : State).event ≠ .keyResolved k :=
  ⟨(fun _ h => by cases h), (fun _ h => by cases h)⟩

/-- Addresses outside the three bytes, on both sides, with `I` at the top of memory. -/
theorem test_meets_StoreDecimalDigits :
    (∀ k : Nat, k < 3 → physical 0x0FFE#16 ≠ physical ((withI 0x0FFF#16).i + BitVec.ofNat 16 k)) ∧
    ∀ k : Nat, k < 3 → physical 0x0002#16 ≠ physical ((withI 0x0FFF#16).i + BitVec.ofNat 16 k) := by decide

/-- The last register of the move with `x` = 0 and `x` = 15, one that is not moved, and an address next to the
bytes. -/
theorem test_meets_BulkStore : (0x0#4).toNat ≤ (0x0#4).toNat ∧ (0xF#4).toNat ≤ (0xF#4).toNat ∧
    ¬ (0x3#4).toNat ≤ (0x2#4).toNat ∧
    ∀ k : Nat, k < (0x2#4).toNat + 1 → physical 0x0303#16 ≠ physical ((withI 0x0300#16).i + BitVec.ofNat 16 k) := by decide

/-- The state right after the store is one in which those bytes have not changed. -/
theorem test_meets_StoreThenLoadRestores : ∀ t : State, t.i = t.i ∧ ∀ k : Nibble, k.toNat ≤ (0xF#4).toNat →
    readByte t (t.i + BitVec.ofNat 16 k.toNat) = readByte t (t.i + BitVec.ofNat 16 k.toNat) :=
  fun _ => ⟨rfl, fun _ _ => rfl⟩

theorem test_meets_ProgramCounterAfterEachInstruction :
    (ready .none 0x00EE#16 State.reset).fault = none ∧
    (run .none 0x00EE#16 State.reset).map (fun t => t.fault) =
      some (some (.stackUnderflow 0x0200#16)) := ⟨rfl, by decide⟩

/-- A bulk load that leaves out `VF`. -/
theorem test_meets_RegistersWrittenAreThoseOfTheTable :
    (∃ t, exec (.loadRegs 0xE#4) State.reset = .next t) ∧ 0xF#4 ∉ writesV (.loadRegs 0xE#4) :=
  ⟨⟨_, rfl⟩, by decide⟩

/-- `VF` is itself the destination. -/
theorem test_meets_FlagIsZeroOrOne :
    Instr.shl 0xF#4 0x1#4 ∈ [Instr.addReg 0xF#4 0x1#4, .sub 0xF#4 0x1#4, .subn 0xF#4 0x1#4, .shr 0xF#4 0x1#4,
      .shl 0xF#4 0x1#4, .drw 0xF#4 0x1#4 0x2#4] ∧
    (∃ t, exec (.shl 0xF#4 0x1#4) State.reset = .next t) ∧
    ∃ t, exec (.drw 0xF#4 0x1#4 0x2#4) State.reset = .next t := ⟨by decide, ⟨_, rfl⟩, ⟨_, rfl⟩⟩

/-- The bulk store writes none of `I`, the timers, the screen, the stack, and reads no event. -/
theorem test_meets_frames_of_storeRegs : (∀ nnn, Instr.storeRegs 0xF#4 ≠ .ldI nnn) ∧
    (∀ x, Instr.storeRegs 0xF#4 ≠ .addI x) ∧ (∀ x, Instr.storeRegs 0xF#4 ≠ .ldF x) ∧
    (∀ x, Instr.storeRegs 0xF#4 ≠ .ldDtVx x) ∧ (∀ x, Instr.storeRegs 0xF#4 ≠ .ldStVx x) ∧
    Instr.storeRegs 0xF#4 ≠ .cls ∧ (∀ x y n, Instr.storeRegs 0xF#4 ≠ .drw x y n) ∧
    (∀ nnn, Instr.storeRegs 0xF#4 ≠ .call nnn) ∧ Instr.storeRegs 0xF#4 ≠ .ret ∧
    (∀ x, Instr.storeRegs 0xF#4 ≠ .skp x) ∧ (∀ x, Instr.storeRegs 0xF#4 ≠ .sknp x) ∧
    (∀ x, Instr.storeRegs 0xF#4 ≠ .ldK x) ∧ ∃ t, exec (.storeRegs 0xF#4) State.reset = .next t :=
  ⟨nofun, nofun, nofun, nofun, nofun, nofun, nofun, nofun, nofun, nofun, nofun, nofun, ⟨_, rfl⟩⟩

/-- The bulk load, for `MemoryWrittenByTwo`. -/
theorem test_meets_MemoryWrittenByTwo : (∀ x, Instr.loadRegs 0xF#4 ≠ .ldB x) ∧
    (∀ x, Instr.loadRegs 0xF#4 ≠ .storeRegs x) ∧ ∃ t, exec (.loadRegs 0xF#4) State.reset = .next t :=
  ⟨nofun, nofun, ⟨_, rfl⟩⟩

/-- The copy into `ST`. -/
theorem test_meets_SoundTimerIsNeverRead : ∃ t, exec (.ldStVx 0x0#4) State.reset = .next t := ⟨_, rfl⟩

/-- An instruction that is no `RND`, and one that is. -/
theorem test_meets_OnlyRandomDraws :
    ((∀ x kk, Instr.ldImm 0x0#4 0xFF#8 ≠ .rnd x kk) ∧ ∃ t, exec (.ldImm 0x0#4 0xFF#8) State.reset = .next t) ∧
    ((∃ x kk, Instr.rnd 0x0#4 0xFF#8 = .rnd x kk) ∧ ∃ t, exec (.rnd 0x0#4 0xFF#8) State.reset = .next t) :=
  ⟨⟨nofun, ⟨_, rfl⟩⟩, ⟨⟨_, _, rfl⟩, ⟨_, rfl⟩⟩⟩

/-- V-FLOW-6: `JP 0x200` at 0x200 is at rest, here before a step with a key held. -/
theorem test_meets_AtRestStaysAtRest : AtRest (ready (.keyPress 0x1#4) 0x1200#16 State.reset) ∧
    nextCall (ready (.keyPress 0x1#4) 0x1200#16 State.reset) = .step (.keyPress 0x1#4) :=
  ⟨⟨rfl, by decide, 0x200#12, by decide, rfl⟩, rfl⟩

/-- A state after a reset call of a program, one with a byte of the font overwritten, and a faulted one that a
reset leaves. -/
theorem test_meets_StepKeepsTheInvariant :
    [ready .none 0xD01F#16 State.reset, bytes [(0x0000#16, 0x55#8)] (ready .none 0x00EE#16 State.reset),
      { faulted with reply := .fault (.stackUnderflow 0x0200#16), calls := [.reset [0x12#8]] }].map
        (fun s => (invariant s, (after (step s)).isSome)) =
    [(true, true), (true, true), (true, true)] := by decide

/-- A reset call on a machine with another font table. -/
theorem test_meets_FontTableNeverChanges :
    ∃ t, step { State.resetWith (Vector.replicate 80 0xAA#8) with calls := [.reset [0x12#8]] } = .next t :=
  exists_next_of_after (by decide)

end Sys2Proof.Tests
end

/-!
Reset, the dispatch of a call, and the font table (00_scope): what one step answers for each call, the contents
of a machine right after reset, and that no transition changes the font table.
-/

namespace Sys2Proof.Machine

/-! ### The dispatch of the host's next call -/

/-- A reset call is performed whatever `FAULT` holds (70_reset R240). -/
theorem step_of_reset {s : State} {image : List Byte} (h : nextCall s = .reset image) :
    step s = resetMachine image (afterCall s) := by
  simp [step, h]

/-- A `step(e)` call of a machine without a fault runs one instruction with the event `e` (30_encoding R70). -/
theorem step_of_step {s : State} {e : Event} (h : nextCall s = .step e) (hf : s.fault = none) :
    step s = runInstr (beginStep e (afterCall s)) := by
  simp [step, h, hf]

theorem runInstr_of_decodeWord {s : State} {i : Instr} (h : decodeWord (fetchWord s) = .ok i) :
    runInstr s = exec i s := by
  simp [runInstr, h]

/-- Taking the call and delivering its event, field by field. -/
theorem beginStep_afterCall (e : Event) (s : State) :
    beginStep e (afterCall s) = { s with
      event := e, calls := s.calls.tail,
      callsDrawn := if s.calls = [] then s.callsDrawn + 1 else s.callsDrawn } := by
  cases h : s.calls <;> simp [beginStep, afterCall, h]

/-! ### The reset transition -/

/-- An image that fits is loaded into a machine made anew (70_reset R240). -/
theorem resetMachine_of_le (s : State) {image : List Byte} (h : image.length ≤ 3584) :
    resetMachine image s = .next { State.resetWith s.font with
      mem := loadImage s.font image, calls := s.calls, callsDrawn := s.callsDrawn, draws := s.draws } :=
  if_pos (decide_eq_true h)

/-- An image that does not fit is refused (70_reset R241). -/
theorem resetMachine_of_gt (s : State) {image : List Byte} (h : 3584 < image.length) :
    resetMachine image s = .refused (.imageTooLong image.length) :=
  if_neg fun hwf => absurd (of_decide_eq_true hwf) h.not_ge

@[simp] theorem readV_resetWith (font : Font) (x : Nibble) : readV (State.resetWith font) x = 0 := by
  simp [readV, State.resetWith]

@[simp] theorem stack_resetWith (font : Font) (j : Fin 16) : (State.resetWith font).stack[j.val] = 0 := by
  simp [State.resetWith]

/-- Memory after a load: the image from 0x200 up, the reset contents elsewhere (70_reset R240). -/
theorem lookup_loadImage (font : Font) (image : List Byte) (a : Nat) :
    (loadImage font image).lookup font a =
      if 0x200 ≤ a ∧ a < 0x200 + image.length then image.getD (a - 0x200) 0x00#8
      else Memory.initial font a :=
  Memory.lookup_storeList image [] 0x200 a

/-- The physical address of byte `k` of an image that fits (20_memory R40). -/
theorem physical_imageAddr {k : Nat} (h : k < 3584) : physical (BitVec.ofNat 16 (0x200 + k)) = 0x200 + k := by
  simp only [physical, BitVec.toNat_ofNat]
  omega

theorem readByte_image {t : State} {image : List Byte} (hmem : t.mem = loadImage t.font image)
    (hfit : image.length ≤ 3584) (k : Nat) (hk : k < image.length) :
    readByte t (BitVec.ofNat 16 (0x200 + k)) = image[k] := by
  rw [readByte, hmem, lookup_loadImage, physical_imageAddr (by omega), if_pos (by omega)]
  simp [hk]

theorem readByte_outside_image {t : State} {image : List Byte} (hmem : t.mem = loadImage t.font image)
    (a : Word) (ha : ¬ (0x200 ≤ physical a ∧ physical a < 0x200 + image.length)) :
    readByte t a = Memory.initial t.font (physical a) := by
  rw [readByte, hmem, lookup_loadImage, if_neg ha]

/-- The default font table is the list of glyphs, byte by byte (10_state R33). -/
theorem defaultFont_toList : defaultFont.toList = defaultGlyphs := by decide

/-! ### The font table -/

/-- A push, with room or without, leaves the font table to the rest of the instruction. -/
theorem push_font {s t : State} {a : Word} {go : State → State} (hgo : ∀ u, (go u).font = u.font)
    (h : push s a go = .next t) : t.font = s.font := by
  unfold push at h
  split at h
  · cases h
    exact hgo _
  · cases h
    rfl

/-- A pop, of a saved address or of none, leaves the font table to the rest of the instruction. -/
theorem pop_font {s t : State} {go : Word → State → State} (hgo : ∀ a u, (go a u).font = u.font)
    (h : pop s go = .next t) : t.font = s.font := by
  unfold pop at h
  split at h
  · cases h
    rfl
  · cases h
    exact hgo _ _

theorem execLdK_font {x : Nibble} {s t : State} (h : execLdK x s = .next t) : t.font = s.font := by
  unfold execLdK at h
  split at h
  all_goals
    cases h
    rfl

/-- No instruction writes the font table (10_state R27). The cases apart are those that go through the stack,
choose by the event, or move several registers; the others update named fields, none of them the font. -/
theorem exec_font {i : Instr} {s t : State} (h : exec i s = .next t) : t.font = s.font := by
  cases i
  case call nnn => exact push_font (go := fun u => jump u (zextAddr nnn)) (fun _ => rfl) h
  case ret => exact pop_font (go := fun a u => jump u a) (fun _ _ => rfl) h
  case ldK x => exact execLdK_font h
  case storeRegs x =>
    cases h
    exact storeFirst_font s _
  case loadRegs x =>
    cases h
    exact loadFirst_font s _
  all_goals
    cases h
    rfl

/-- A fetched word, legal or not, leaves the font table. -/
theorem runInstr_font {s t : State} (h : runInstr s = .next t) : t.font = s.font := by
  unfold runInstr at h
  split at h
  · exact exec_font h
  · cases h
    rfl

/-! ### The obligations -/

/-- Settles O6: the load puts the image over the reset contents, all other fields are those of reset. -/
theorem resetCallLoadsImage : Obligations.ResetCallLoadsImage := by
  intro s image hcall hfit
  refine ⟨_, (step_of_reset hcall).trans (resetMachine_of_le _ hfit), readByte_image rfl hfit,
    fun a ha => ?_, readV_resetWith (afterCall s).font, rfl, rfl, rfl, stack_resetWith (afterCall s).font,
    rfl, rfl, pixel_blankScreen, rfl, afterCall_font s, rfl⟩
  rw [readByte_outside_image rfl a ha, ← afterCall_font s]
  rfl

/-- Settles O60, by the three transitions of `step_cases`. -/
theorem fontTableNeverChanges : Obligations.FontTableNeverChanges := by
  intro s t h
  obtain ⟨_, _, _, rfl⟩ | ⟨_, _, rfl⟩ | ⟨e, _, _, hrun⟩ := step_cases h
  · rfl
  · simp
  · simpa using runInstr_font hrun

/-- Settles O5: the memory of reset is the load of the empty image. -/
theorem resetState : Obligations.ResetState :=
  ⟨fun font => ⟨readV_resetWith font, rfl, rfl, rfl, stack_resetWith font, rfl, rfl, pixel_blankScreen, rfl, rfl,
    fun a => readByte_outside_image (image := []) rfl a (by simp)⟩, rfl, defaultFont_toList⟩

/-- Settles O7: the call reaches the reset transition, which refuses. -/
theorem longImageIsRefused : Obligations.LongImageIsRefused :=
  fun s _ hcall hlong => (step_of_reset hcall).trans (resetMachine_of_gt (afterCall s) hlong)

/-- Settles O8: taking the call and its event moves neither `PC` nor memory, so the fetch is that of `s`. -/
theorem stepRunsTheDecodedInstruction : Obligations.StepRunsTheDecodedInstruction := by
  intro s e i hcall hfault _ hdecode
  have hfetch : fetchWord (beginStep e (afterCall s)) = fetchWord s :=
    fetchWord_congr (by simp) (by simp) (by simp)
  rw [step_of_step hcall hfault, runInstr_of_decodeWord (hfetch ▸ hdecode), beginStep_afterCall]

end Sys2Proof.Machine

/-!
Each instruction on its own: the fields it may write, how it ends, and from these the frames, the invariant and the
exact effects of the flow, timer, index, random and key instructions (10_state, 40_screen_and_flow).
-/

namespace Sys2Proof.Machine

/-! ### Frames from equal fields -/

theorem VKept.of_eq {written : List Nibble} {s t : State} (h : t.v = s.v) : VKept written s t :=
  fun r _ => readV_congr h r

theorem MemKept.of_eq {s t : State} (hmem : t.mem = s.mem) (hfont : t.font = s.font) : MemKept s t :=
  readByte_congr hmem hfont

theorem StackKept.of_eq {s t : State} (hsp : t.sp = s.sp) (hstack : t.stack = s.stack) : StackKept s t :=
  ⟨hsp, fun j => by rw [hstack]⟩

theorem ScreenKept.of_eq {s t : State} (h : t.fb = s.fb) : ScreenKept s t :=
  fun r c => by rw [h]

theorem vKept_writeV (s : State) (x : Nibble) (b : Byte) : VKept [x] s (writeV s x b) := by
  intro r hr
  rw [readV_writeV, if_neg (by simpa using hr)]

theorem vKept_writeResultAndFlag (s : State) (x : Nibble) (b : Byte) (f : Bool) :
    VKept [x, 0xF#4] s (writeResultAndFlag s x b f) := by
  intro r hr
  obtain ⟨hx, hF⟩ : r ≠ x ∧ r ≠ 0xF#4 := by simpa using hr
  simp [hx, hF]

/-- An instruction that only moves `PC` and answers. -/
theorem onlyV_leave (s : State) (target : Word) (o : StepOutcome) : OnlyV [] s (leave s target o) :=
  ⟨.of_eq rfl, rfl, .of_eq rfl rfl, .of_eq rfl rfl, ⟨rfl, rfl⟩, .of_eq rfl, rfl, rfl, rfl, rfl, rfl, rfl⟩

/-- An instruction that writes one general register. -/
theorem onlyV_leave_writeV (s : State) (x : Nibble) (b : Byte) (target : Word) (o : StepOutcome) :
    OnlyV [x] s (leave (writeV s x b) target o) :=
  ⟨vKept_writeV s x b, rfl, .of_eq rfl rfl, .of_eq rfl rfl, ⟨rfl, rfl⟩, .of_eq rfl,
    rfl, rfl, rfl, rfl, rfl, rfl⟩

/-- Taking a fault writes `FAULT` and the reply only (60_exceptions R204). -/
theorem onlyFault_of_raise {f : FaultRecord} {s t : State} (h : raise f s = .next t) : OnlyFault s t := by
  cases h
  exact ⟨.of_eq rfl, rfl, rfl, .of_eq rfl rfl, .of_eq rfl rfl, ⟨rfl, rfl⟩, .of_eq rfl⟩

/-! ### The instructions that branch: `CALL`, `RET` and `LD Vx,K` -/

theorem exec_call_of_lt (nnn : Addr12) {s : State} (h : s.sp.val < 16) :
    exec (.call nnn) s = .next (jump { s with
      stack := s.stack.set s.sp.val (npc s), sp := ⟨s.sp.val + 1, by omega⟩ } (zextAddr nnn)) :=
  push_of_lt s (npc s) (fun u => jump u (zextAddr nnn)) h

theorem exec_call_of_full (nnn : Addr12) {s : State} (h : s.sp.val = 16) :
    exec (.call nnn) s = raise (.stackOverflow s.pc) s :=
  push_of_full s (npc s) (fun u => jump u (zextAddr nnn)) h

theorem exec_ret_of_pos {s : State} (h : s.sp.val ≠ 0) :
    exec .ret s = .next (jump { s with sp := ⟨s.sp.val - 1, by omega⟩ } (stackTop s)) :=
  pop_of_pos s (fun a u => jump u a) h

theorem exec_ret_of_zero {s : State} (h : s.sp.val = 0) :
    exec .ret s = raise (.stackUnderflow s.pc) s :=
  pop_of_zero s (fun a u => jump u a) h

/-- `SP` has room for one more address or counts all sixteen (10_state R18). -/
theorem sp_lt_or_full (s : State) : s.sp.val < 16 ∨ s.sp.val = 16 := by omega

theorem exec_ldK_of_resolved (x : Nibble) {k : Nibble} {s : State} (h : s.event = .keyResolved k) :
    exec (.ldK x) s = .next (advance (writeV s x (zextKey k))) := by
  change execLdK x s = _
  simp [execLdK, h]

theorem exec_ldK_of_pending (x : Nibble) {s : State} (h : ∀ k, s.event ≠ .keyResolved k) :
    exec (.ldK x) s = .next (await s) := by
  change execLdK x s = _
  cases he : s.event with
  | keyResolved k => exact absurd he (h k)
  | none => simp [execLdK, he]
  | keyPress k => simp [execLdK, he]

/-- The two phases of a wait (46_await_key R170). -/
theorem resolved_or_pending (s : State) :
    (∃ k, s.event = .keyResolved k) ∨ ∀ k, s.event ≠ .keyResolved k := by
  rw [← not_exists]
  exact em _

/-! ### The fields an instruction may write -/

/-- `s` with the fields the instruction may write taken from `t`; every instruction may write `PC` and the reply
(10_state R11 to R27). -/
def mergeWrites (i : Instr) (s t : State) : State :=
  match i with
  | .jp _ | .jpV0 _ | .seImm _ _ | .sneImm _ _ | .seReg _ _ | .sneReg _ _ | .skp _ | .sknp _ =>
    { s with pc := t.pc, reply := t.reply }
  | .ldImm _ _ | .addImm _ _ | .ldReg _ _ | .orReg _ _ | .andReg _ _ | .xorReg _ _ | .addReg _ _
  | .sub _ _ | .shr _ _ | .subn _ _ | .shl _ _ | .ldVxDt _ | .loadRegs _ | .ldK _ =>
    { s with v := t.v, pc := t.pc, reply := t.reply }
  | .rnd _ _ => { s with v := t.v, draws := t.draws, pc := t.pc, reply := t.reply }
  | .ldI _ | .addI _ | .ldF _ => { s with i := t.i, pc := t.pc, reply := t.reply }
  | .ldDtVx _ => { s with dt := t.dt, pc := t.pc, reply := t.reply }
  | .ldStVx _ => { s with st := t.st, pc := t.pc, reply := t.reply }
  | .ldB _ | .storeRegs _ => { s with mem := t.mem, pc := t.pc, reply := t.reply }
  | .cls => { s with fb := t.fb, pc := t.pc, reply := t.reply }
  | .drw _ _ _ => { s with v := t.v, fb := t.fb, pc := t.pc, reply := t.reply }
  | .call _ | .ret =>
    { s with stack := t.stack, sp := t.sp, fault := t.fault, pc := t.pc, reply := t.reply }

/-- One more byte written after memory alone has changed. -/
theorem writeByte_eq {s u : State} (a : Word) (v : Byte) (h : u = { s with mem := u.mem }) :
    writeByte u a v = { s with mem := (writeByte u a v).mem } := by
  rw [h]; rfl

/-- The bulk store writes memory only. -/
theorem storeFirst_eq (s : State) (k : Nat) : storeFirst s k = { s with mem := (storeFirst s k).mem } := by
  induction k with
  | zero => rfl
  | succ k ih => exact writeByte_eq _ _ ih

/-- The end of an instruction that wrote memory only. -/
theorem advance_eq_of_mem {s u : State} (h : u = { s with mem := u.mem }) :
    advance u = { s with mem := (advance u).mem, pc := (advance u).pc, reply := (advance u).reply } := by
  rw [h]; rfl

/-- The bulk load writes the register file only. -/
theorem loadFirst_eq (s : State) (k : Nat) : loadFirst s k = { s with v := (loadFirst s k).v } := by
  induction k with
  | zero => rfl
  | succ k ih => rw [loadFirst, ih]; rfl

/-- No instruction writes a field outside its row of `mergeWrites`. -/
theorem exec_writes {i : Instr} {s t : State} (h : exec i s = .next t) : t = mergeWrites i s t := by
  cases i
  case call nnn =>
    obtain hs | hs := sp_lt_or_full s
    · cases (exec_call_of_lt nnn hs).symm.trans h
      rfl
    · cases (exec_call_of_full nnn hs).symm.trans h
      rfl
  case ret =>
    by_cases hs : s.sp.val = 0
    · cases (exec_ret_of_zero hs).symm.trans h
      rfl
    · cases (exec_ret_of_pos hs).symm.trans h
      rfl
  case ldK x =>
    obtain ⟨k, hk⟩ | hk := resolved_or_pending s
    · cases (exec_ldK_of_resolved x hk).symm.trans h
      rfl
    · cases (exec_ldK_of_pending x hk).symm.trans h
      rfl
  case storeRegs x =>
    cases h
    exact advance_eq_of_mem (storeFirst_eq s _)
  case ldB x =>
    cases h
    exact advance_eq_of_mem (writeByte_eq _ _ (writeByte_eq _ _ (writeByte_eq _ _ rfl)))
  case loadRegs x =>
    cases h
    rw [loadFirst_eq]
    rfl
  all_goals
    cases h
    rfl

/-! ### How an instruction ends -/

/-- An instruction that is no stack instruction leaves `FAULT`. -/
theorem exec_fault {i : Instr} {s t : State} (h : exec i s = .next t)
    (hcall : ∀ nnn, i ≠ .call nnn) (hret : i ≠ .ret) : t.fault = s.fault := by
  have hw := congrArg State.fault (exec_writes h)
  cases i
  case call nnn => exact absurd rfl (hcall nnn)
  case ret => exact absurd rfl hret
  all_goals exact hw

/-- The instruction took no fault, and a `Redraw` it returned shows the screen as it is (10_state R30). -/
def Completed (s t : State) : Prop :=
  t.fault = s.fault ∧
    (t.reply = .outcome .none ∨ t.reply = .outcome .awaitKey ∨ t.reply = .outcome (.redraw t.fb))

/-- Every instruction takes a fault or completes. -/
theorem exec_ends {i : Instr} {s t : State} (h : exec i s = .next t) :
    (∃ f, raise f s = .next t) ∨ Completed s t := by
  cases i
  case call nnn =>
    obtain hs | hs := sp_lt_or_full s
    · cases (exec_call_of_lt nnn hs).symm.trans h
      exact .inr ⟨rfl, .inl rfl⟩
    · exact .inl ⟨_, (exec_call_of_full nnn hs).symm.trans h⟩
  case ret =>
    by_cases hs : s.sp.val = 0
    · exact .inl ⟨_, (exec_ret_of_zero hs).symm.trans h⟩
    · cases (exec_ret_of_pos hs).symm.trans h
      exact .inr ⟨rfl, .inl rfl⟩
  case ldK x =>
    obtain ⟨k, hk⟩ | hk := resolved_or_pending s
    · cases (exec_ldK_of_resolved x hk).symm.trans h
      exact .inr ⟨rfl, .inl rfl⟩
    · cases (exec_ldK_of_pending x hk).symm.trans h
      exact .inr ⟨rfl, .inr (.inl rfl)⟩
  case cls | drw =>
    cases h
    exact .inr ⟨rfl, .inr (.inr rfl)⟩
  all_goals
    have hf := exec_fault h nofun nofun
    cases h
    exact .inr ⟨hf, .inl rfl⟩

/-- A fetched word, legal or not, takes a fault or completes. -/
theorem runInstr_ends {s t : State} (h : runInstr s = .next t) :
    (∃ f, raise f s = .next t) ∨ Completed s t := by
  unfold runInstr at h
  split at h
  · exact exec_ends h
  · exact .inl ⟨_, h⟩

/-! ### The invariant -/

theorem wf_advance {s : State} (h : s.mem.wf s.font = true) : (advance s).mem.wf (advance s).font = true := h

/-- Every instruction keeps memory in canonical form (10_state R34). -/
theorem exec_wf {i : Instr} {s t : State} (hs : s.mem.wf s.font = true) (h : exec i s = .next t) :
    t.mem.wf t.font = true := by
  have hmem := congrArg State.mem (exec_writes h)
  have hfont := exec_font h
  cases i
  case ldB x =>
    cases h
    exact wf_advance (wf_writeByte _ _ _ (wf_writeByte _ _ _ (wf_writeByte _ _ _ hs)))
  case storeRegs x =>
    cases h
    exact wf_advance (wf_storeFirst s _ hs)
  all_goals
    rw [hfont, hmem]
    exact hs

/-- A fetched word, legal or not, keeps memory in canonical form. -/
theorem runInstr_wf {s t : State} (hs : s.mem.wf s.font = true) (h : runInstr s = .next t) :
    t.mem.wf t.font = true := by
  unfold runInstr at h
  split at h
  · exact exec_wf hs h
  · cases h
    exact hs

theorem replyAgrees_of_raise {f : FaultRecord} {s t : State} (h : raise f s = .next t) :
    replyAgrees t = true := by
  cases h
  simp [replyAgrees]

theorem Completed.replyAgrees {s t : State} (hs : s.fault = none) (h : Completed s t) :
    replyAgrees t = true := by
  obtain ⟨hf, hr | hr | hr⟩ := h <;> simp [Machine.replyAgrees, hf, hs, hr]

theorem invariant_iff (s : State) :
    invariant s = true ↔ s.mem.wf s.font = true ∧ replyAgrees s = true :=
  Bool.and_eq_true_iff

/-- Settles O58, by the three transitions of `step_cases`. -/
theorem stepKeepsTheInvariant : Obligations.StepKeepsTheInvariant := by
  intro s t hs h
  obtain ⟨hwf, -⟩ := (invariant_iff s).mp hs
  rw [invariant_iff]
  obtain ⟨_, _, hfit, rfl⟩ | ⟨_, hf, rfl⟩ | ⟨e, _, hf, hrun⟩ := step_cases h
  · exact ⟨wf_loadImage hfit, rfl⟩
  · exact ⟨by simpa using hwf, by simp [replyAgrees, hf]⟩
  · refine ⟨runInstr_wf (by simpa using hwf) hrun, ?_⟩
    obtain ⟨f, hfault⟩ | hdone := runInstr_ends hrun
    · exact replyAgrees_of_raise hfault
    · exact hdone.replyAgrees (by simpa using hf)

/-- Settles O59: memory lists no cell, and neither `FAULT` nor the reply holds a fault. -/
theorem invariantAtReset : Obligations.InvariantAtReset :=
  fun _ => rfl

/-! ### One instruction -/

theorem lowNibble_toNat (b : Byte) : (lowNibble b).toNat = b.toNat % 16 := by
  simp [lowNibble, BitVec.extractLsb'_toNat]

theorem zextAddr_toNat (nnn : Addr12) : (zextAddr nnn).toNat = nnn.toNat := by
  simp only [zextAddr, BitVec.truncate_eq_setWidth, BitVec.toNat_setWidth]
  omega

theorem zextByte_toNat (b : Byte) : (zextByte b).toNat = b.toNat := by
  simp only [zextByte, BitVec.truncate_eq_setWidth, BitVec.toNat_setWidth]
  omega

theorem glyphAddr_toNat (b : Byte) : (glyphAddr b).toNat = 5 * (b.toNat % 16) := by
  simp only [glyphAddr, lowNibble_toNat, BitVec.toNat_ofNat]
  omega

theorem skipIf_pc (s : State) (c : Bool) : (skipIf s c).pc = skipPc s c := by
  simp [skipPc, BitVec.add_assoc]

/-- Only `KeyPress` of the key the register asks for holds it (44_keys_and_timers R150). -/
theorem keyIsHeld_eq (s : State) (x : Nibble) :
    keyIsHeld s x = (s.event == .keyPress (lowNibble (readV s x))) := by
  cases h : s.event <;> simp [keyIsHeld, heldKey, h]

theorem keyIsHeld_iff (s : State) (x : Nibble) :
    keyIsHeld s x = true ↔ ∃ k, s.event = .keyPress k ∧ k.toNat = (readV s x).toNat % 16 := by
  rw [keyIsHeld_eq, beq_iff_eq, ← lowNibble_toNat]
  constructor
  · exact fun h => ⟨_, h, rfl⟩
  · rintro ⟨k, hevent, hk⟩
    rw [hevent, BitVec.eq_of_toNat_eq hk]

/-- After a fault whatever step answers is a reset (60_exceptions R205). -/
theorem reset_of_step_of_fault {t u : State} {f : FaultRecord} (hf : t.fault = some f) (h : step t = .next u) :
    ∃ image, nextCall t = .reset image := by
  obtain ⟨image, hcall, -⟩ | ⟨-, hnone, -⟩ | ⟨-, -, hnone, -⟩ := step_cases h
  · exact ⟨image, hcall⟩
  · simp [hf] at hnone
  · simp [hf] at hnone

/-- The fault taken: the record, the reply, nothing else, and only a reset after it. -/
theorem raise_spec (f : FaultRecord) (s : State) :
    ∃ t, raise f s = .next t ∧ t.fault = some f ∧ t.reply = .fault f ∧ OnlyFault s t ∧
      ∀ u, step t = .next u → ∃ image, nextCall t = .reset image :=
  ⟨_, rfl, rfl, rfl, onlyFault_of_raise rfl, fun _ => reset_of_step_of_fault rfl⟩

/-- Settles O10, by the two guards of the stack. -/
theorem stackFaultsChangeNothing : Obligations.StackFaultsChangeNothing := by
  refine ⟨fun nnn s h => ?_, fun s h => ?_⟩
  · rw [exec_call_of_full nnn h]
    exact raise_spec _ s
  · rw [exec_ret_of_zero h]
    exact raise_spec _ s

/-- Settles O14: both bytes of the word are read through the translator. -/
theorem fetchDependsOnPcModulo4096 : Obligations.FetchDependsOnPcModulo4096 := by
  intro s p h
  have hlow : physical (p + 1) = physical (s.pc + 1) := by
    rw [show (1 : Word) = BitVec.ofNat 16 1 from rfl, physical_add, physical_add]
    omega
  have hread : ∀ a b : Word, physical a = physical b → readByte { s with pc := p } a = readByte s b :=
    fun a b hab => congrArg (s.mem.lookup s.font) hab
  exact congrArg₂ joinBytes (hread _ _ h) (hread _ _ hlow)

/-- Settles O18: each move is one write of `V[x]`, `DT` or `ST` and the advance of `PC`. -/
theorem timerMoves : Obligations.TimerMoves := by
  refine ⟨fun x s => ⟨_, rfl, ?_, rfl, rfl, onlyV_leave_writeV s x s.dt _ _⟩,
    fun x s => ⟨_, rfl, rfl, rfl, rfl, rfl, .of_eq rfl, rfl, .of_eq rfl rfl, .of_eq rfl rfl, .of_eq rfl,
      rfl, rfl, rfl, rfl, rfl, rfl⟩,
    fun x s => ⟨_, rfl, rfl, rfl, rfl, rfl, .of_eq rfl, rfl, .of_eq rfl rfl, .of_eq rfl rfl, .of_eq rfl,
      rfl, rfl, rfl, rfl, rfl, rfl⟩⟩
  simp

/-- Settles O19: `CLS` writes the blank screen and ends with a redraw of it. -/
theorem clearScreen : Obligations.ClearScreen :=
  fun _ => ⟨_, rfl, pixel_blankScreen, rfl, rfl, .of_eq rfl, rfl, .of_eq rfl rfl, .of_eq rfl rfl, ⟨rfl, rfl⟩,
    rfl, rfl, rfl, rfl, rfl, rfl⟩

/-- Settles O20: with `SP` = `k + 1` the top of the stack is entry `k`. -/
theorem returnPopsTheTop : Obligations.ReturnPopsTheTop := by
  intro s k hk hsp
  have htop : stackTop s = s.stack[k] := by simp [stackTop, hsp]
  exact ⟨_, exec_ret_of_pos (by omega), htop, by simp [hsp], fun _ => rfl, rfl, .of_eq rfl, rfl,
    .of_eq rfl rfl, ⟨rfl, rfl⟩, .of_eq rfl, rfl, rfl, rfl, rfl, rfl, rfl⟩

/-- Settles O22: the write at `SP` gives the return address there and keeps every other entry. -/
theorem callPushesTheReturnAddress : Obligations.CallPushesTheReturnAddress := by
  intro nnn s h
  refine ⟨_, exec_call_of_lt nnn h, zextAddr_toNat nnn, ?_, rfl, fun j hj => ?_, rfl, .of_eq rfl, rfl,
    .of_eq rfl rfl, ⟨rfl, rfl⟩, .of_eq rfl, rfl, rfl, rfl, rfl, rfl, rfl⟩
  · simp [npc]
  · exact Vector.getElem_set_ne h j.isLt hj.symm

/-- Settles O23: the `RET` pops the entry the `CALL` pushed, which the code between has kept. -/
theorem callThenRetReturns : Obligations.CallThenRetReturns := by
  intro nnn s hroom
  obtain ⟨t, hcall, -, htop, hdepth, -⟩ := callPushesTheReturnAddress nnn s hroom
  refine ⟨t, hcall, fun u ⟨hsp, hstack⟩ => ?_⟩
  obtain ⟨v, hret, hpc, hv, -, -, hregs, -, hmem, -⟩ :=
    returnPopsTheTop u s.sp.val hroom ((congrArg Fin.val hsp).trans hdepth)
  have hentry : u.stack[s.sp.val] = t.stack[s.sp.val] := hstack ⟨s.sp.val, hroom⟩
  exact ⟨v, hret, by rw [hpc, hentry, htop], Fin.ext hv, hregs, hmem⟩

/-- What every skip does. -/
theorem skipIf_spec (s : State) (c : Bool) {target : Word} (h : skipPc s c = target) :
    (skipIf s c).pc = target ∧ (skipIf s c).reply = .outcome .none ∧ OnlyV [] s (skipIf s c) :=
  ⟨(skipIf_pc s c).trans h, rfl, onlyV_leave s _ _⟩

/-- Settles O24: the four are skips, each on its own comparison. -/
theorem compareAndSkip : Obligations.CompareAndSkip :=
  ⟨fun x kk s => ⟨_, rfl, skipIf_spec s _ (by simp [skipPc])⟩,
    fun x kk s => ⟨_, rfl, skipIf_spec s _ (by simp [skipPc])⟩,
    fun x y s => ⟨_, rfl, skipIf_spec s _ (by simp [skipPc])⟩,
    fun x y s => ⟨_, rfl, skipIf_spec s _ (by simp [skipPc])⟩⟩

/-- Settles O38, by whether the key is held. -/
theorem skipOnKey : Obligations.SkipOnKey := by
  refine ⟨fun x s => ⟨skipIf s (keyIsHeld s x), rfl, ?_⟩, fun x s => ⟨skipIf s (!keyIsHeld s x), rfl, ?_⟩⟩
  all_goals
    rw [← keyIsHeld_iff, skipIf_pc]
    refine ⟨fun h => ?_, fun h => ?_, rfl, onlyV_leave s _ _⟩ <;> simp [skipPc, h]

/-- What every write of `I` does. -/
theorem advance_writeI_spec (s : State) (a : Word) :
    let t := advance (writeI s a)
    t.pc = s.pc + 2 ∧ t.reply = .outcome .none ∧ VKept [] s t ∧ MemKept s t ∧ StackKept s t ∧
      TimersKept s t ∧ ScreenKept s t ∧ HostKept s t :=
  ⟨rfl, rfl, .of_eq rfl, .of_eq rfl rfl, .of_eq rfl rfl, ⟨rfl, rfl⟩, .of_eq rfl, rfl, rfl, rfl, rfl, rfl, rfl⟩

/-- Settles O31: each is one write of `I`; what is left are the three values. -/
theorem indexRegisterWrites : Obligations.IndexRegisterWrites := by
  refine ⟨fun nnn s => ⟨_, rfl, zextAddr_toNat nnn, advance_writeI_spec s _⟩,
    fun x s => ⟨_, rfl, ?_, advance_writeI_spec s _⟩,
    fun x s => ⟨_, rfl, glyphAddr_toNat _, advance_writeI_spec s _⟩⟩
  simp [zextByte_toNat]

/-- Settles O33: one byte drawn, one register written. -/
theorem randomUnderMask : Obligations.RandomUnderMask := by
  intro x kk s
  refine ⟨_, rfl, ?_, rfl, rfl, rfl, vKept_writeV (afterDraw s) x _, rfl, .of_eq rfl rfl, .of_eq rfl rfl,
    ⟨rfl, rfl⟩, .of_eq rfl, rfl, rfl, rfl, rfl, rfl⟩
  simp [randByte]

/-! ### `PC` and the reply after each instruction -/

theorem zextAddr_eq (nnn : Addr12) : zextAddr nnn = BitVec.ofNat 16 nnn.toNat :=
  BitVec.eq_of_toNat_eq (by rw [zextAddr_toNat, BitVec.toNat_ofNat]; omega)

theorem zextAddr_add_zextByte (nnn : Addr12) (b : Byte) :
    zextAddr nnn + zextByte b = BitVec.ofNat 16 (nnn.toNat + b.toNat) :=
  BitVec.eq_of_toNat_eq (by rw [BitVec.toNat_add, zextAddr_toNat, zextByte_toNat, BitVec.toNat_ofNat])

/-- Every instruction answers, with `PC` and the reply of the tables of R15 and R31. -/
theorem exec_pc_reply (i : Instr) (s : State) :
    ∃ t, exec i s = .next t ∧ t.pc = pcAfter i s ∧ t.reply = replyAfter i s t := by
  cases i
  case call nnn =>
    obtain hs | hs := sp_lt_or_full s
    · exact ⟨_, exec_call_of_lt nnn hs, by simp [pcAfter, hs.ne, zextAddr_eq], by simp [replyAfter, hs.ne]⟩
    · exact ⟨_, exec_call_of_full nnn hs, by simp [pcAfter, hs], by simp [replyAfter, hs]⟩
  case ret =>
    by_cases hs : s.sp.val = 0
    · exact ⟨_, exec_ret_of_zero hs, by simp [pcAfter, hs], by simp [replyAfter, hs]⟩
    · exact ⟨_, exec_ret_of_pos hs, by simp [pcAfter, hs], by simp [replyAfter, hs]⟩
  case ldK x =>
    obtain ⟨k, hk⟩ | hk := resolved_or_pending s
    · exact ⟨_, exec_ldK_of_resolved x hk, by simp [pcAfter, hk], by simp [replyAfter, hk]⟩
    · exact ⟨_, exec_ldK_of_pending x hk, by simp [pcAfter], by simp [replyAfter]⟩
  case seImm | sneImm | seReg | sneReg => exact ⟨_, rfl, skipIf_pc s _, rfl⟩
  case skp x => exact ⟨_, rfl, (skipIf_pc s _).trans (congrArg (skipPc s) (keyIsHeld_eq s x)), rfl⟩
  case sknp x => exact ⟨_, rfl, (skipIf_pc s _).trans (congrArg (skipPc s <| !·) (keyIsHeld_eq s x)), rfl⟩
  case jp nnn => exact ⟨_, rfl, zextAddr_eq nnn, rfl⟩
  case jpV0 nnn => exact ⟨_, rfl, zextAddr_add_zextByte nnn _, rfl⟩
  case storeRegs x => exact ⟨_, rfl, congrArg (· + 2) (storeFirst_pc s _), rfl⟩
  case loadRegs x => exact ⟨_, rfl, congrArg (· + 2) (loadFirst_pc s _), rfl⟩
  all_goals exact ⟨_, rfl, rfl, rfl⟩

/-- Settles O45: the table for `PC`, and that a step sets `FAULT` only by taking a fault, which leaves `PC`. -/
theorem programCounterAfterEachInstruction : Obligations.ProgramCounterAfterEachInstruction := by
  refine ⟨fun i s => ?_, fun s t f hs h ht => ?_⟩
  · obtain ⟨t, hexec, hpc, -⟩ := exec_pc_reply i s
    exact ⟨t, hexec, hpc⟩
  · obtain ⟨_, _, _, rfl⟩ | ⟨_, _, rfl⟩ | ⟨e, _, _, hrun⟩ := step_cases h
    · cases ht
    · simp [hs] at ht
    · obtain ⟨g, hg⟩ | ⟨hkept, -⟩ := runInstr_ends hrun
      · cases hg
        simp
      · simp [hkept, hs] at ht

/-- Settles O46, by the table for the reply. -/
theorem outcomeOfEachInstruction : Obligations.OutcomeOfEachInstruction := by
  intro i s
  obtain ⟨t, hexec, -, hreply⟩ := exec_pc_reply i s
  exact ⟨t, hexec, hreply⟩

/-! ### Who writes which field -/

/-- Settles O47: the register writers one by one, the others by `exec_writes`. -/
theorem registersWrittenAreThoseOfTheTable : Obligations.RegistersWrittenAreThoseOfTheTable := by
  intro i s t h
  have hv := congrArg State.v (exec_writes h)
  cases i
  case ldImm | addImm | ldReg | orReg | andReg | xorReg | ldVxDt =>
    cases h
    exact vKept_writeV s _ _
  case rnd x kk =>
    cases h
    exact vKept_writeV (afterDraw s) x _
  case addReg | sub | shr | subn | shl =>
    cases h
    exact vKept_writeResultAndFlag s _ _ _
  case drw x y n =>
    cases h
    exact vKept_writeV (writeFb s _) 0xF#4 _
  case loadRegs x =>
    cases h
    intro r hr
    have hx : ¬ r.toNat < x.toNat + 1 := fun hlt =>
      hr (List.mem_map.mpr ⟨r.toNat, List.mem_range.mpr hlt, by simp⟩)
    exact (readV_loadFirst s _ (by omega) r).trans (if_neg hx)
  case ldK x =>
    obtain ⟨k, hk⟩ | hk := resolved_or_pending s
    · cases (exec_ldK_of_resolved x hk).symm.trans h
      exact vKept_writeV s x _
    · cases (exec_ldK_of_pending x hk).symm.trans h
      exact .of_eq rfl
  all_goals exact .of_eq hv

/-- A flag is the byte 0 or 1 (10_state R12). -/
theorem flagByte_eq_zero_or_one (f : Bool) : flagByte f = 0 ∨ flagByte f = 1 := by
  cases f
  · exact .inl rfl
  · exact .inr rfl

/-- After a write of `VF` as a flag, and whatever ends the instruction, `VF` is 0 or 1. -/
theorem readV_setFlag_eq_zero_or_one (s : State) (f : Bool) :
    readV (setFlag s f) 0xF#4 = 0 ∨ readV (setFlag s f) 0xF#4 = 1 := by
  rw [setFlag_eq, readV_writeV, if_pos rfl]
  exact flagByte_eq_zero_or_one f

/-- Settles O48: in each of the six the flag is the last write of a register. -/
theorem flagIsZeroOrOne : Obligations.FlagIsZeroOrOne := by
  intro x y n s t i hi h
  simp only [List.mem_cons, List.not_mem_nil, or_false] at hi
  obtain rfl | rfl | rfl | rfl | rfl | rfl := hi
  all_goals
    cases h
    exact readV_setFlag_eq_zero_or_one _ _

/-- Settles O49: no other row of `mergeWrites` holds `I`. -/
theorem indexRegisterWrittenByThree : Obligations.IndexRegisterWrittenByThree := by
  intro i s t hldI haddI hldF h
  have hi := congrArg State.i (exec_writes h)
  cases i
  case ldI nnn => exact absurd rfl (hldI nnn)
  case addI x => exact absurd rfl (haddI x)
  case ldF x => exact absurd rfl (hldF x)
  all_goals exact hi

/-- Settles O50: no other row of `mergeWrites` holds a timer. -/
theorem timersWrittenByTwo : Obligations.TimersWrittenByTwo := by
  intro i s t h
  have hdt := congrArg State.dt (exec_writes h)
  have hst := congrArg State.st (exec_writes h)
  cases i
  case ldDtVx x => exact ⟨fun hi => absurd rfl (hi x), fun _ => hst⟩
  case ldStVx x => exact ⟨fun _ => hdt, fun hi => absurd rfl (hi x)⟩
  all_goals exact ⟨fun _ => hdt, fun _ => hst⟩

/-- Settles O52: no other row of `mergeWrites` holds memory. -/
theorem memoryWrittenByTwo : Obligations.MemoryWrittenByTwo := by
  intro i s t hldB hstore h
  have hmem := congrArg State.mem (exec_writes h)
  have hfont := exec_font h
  cases i
  case ldB x => exact absurd rfl (hldB x)
  case storeRegs x => exact absurd rfl (hstore x)
  all_goals exact .of_eq hmem hfont

/-- Settles O53: no other row of `mergeWrites` holds the framebuffer. -/
theorem screenWrittenByTwo : Obligations.ScreenWrittenByTwo := by
  intro i s t hcls hdrw h
  have hfb := congrArg State.fb (exec_writes h)
  cases i
  case cls => exact absurd rfl hcls
  case drw x y n => exact absurd rfl (hdrw x y n)
  all_goals exact .of_eq hfb

/-- Settles O54: no other row of `mergeWrites` holds the stack. -/
theorem stackChangedByCallAndRet : Obligations.StackChangedByCallAndRet := by
  intro i s t hcall hret h
  have hsp := congrArg State.sp (exec_writes h)
  have hstack := congrArg State.stack (exec_writes h)
  cases i
  case call nnn => exact absurd rfl (hcall nnn)
  case ret => exact absurd rfl hret
  all_goals exact .of_eq hsp hstack

/-- Settles O56: no other row of `mergeWrites` holds the count of draws. -/
theorem onlyRandomDraws : Obligations.OnlyRandomDraws := by
  intro i s t h
  have hdraws := congrArg State.draws (exec_writes h)
  refine ⟨fun hi => ?_, ?_⟩
  · cases i
    case rnd x kk => exact absurd rfl (hi x kk)
    all_goals exact hdraws
  · rintro ⟨x, kk, rfl⟩
    cases h
    rfl

/-! ### Who reads `ST` and the event -/

/-- `s` with `ST` and the event changed. -/
def mapStEvent (φ : Byte → Byte) (ψ : Event → Event) (s : State) : State :=
  { s with st := φ s.st, event := ψ s.event }

section
variable (φ : Byte → Byte) (ψ : Event → Event) {s t : State}

theorem storeFirst_mapStEvent (k : Nat) :
    storeFirst (mapStEvent φ ψ s) k = mapStEvent φ ψ (storeFirst s k) := by
  induction k with
  | zero => rfl
  | succ k ih => rw [storeFirst, ih]; rfl

theorem loadFirst_mapStEvent (k : Nat) :
    loadFirst (mapStEvent φ ψ s) k = mapStEvent φ ψ (loadFirst s k) := by
  induction k with
  | zero => rfl
  | succ k ih => rw [loadFirst, ih]; rfl

theorem exec_storeRegs_mapStEvent {x : Nibble} (h : exec (.storeRegs x) s = .next t) :
    exec (.storeRegs x) (mapStEvent φ ψ s) = .next (mapStEvent φ ψ t) := by
  cases h
  exact congrArg (Host.Outcome.next ∘ advance) (storeFirst_mapStEvent φ ψ _)

theorem exec_loadRegs_mapStEvent {x : Nibble} (h : exec (.loadRegs x) s = .next t) :
    exec (.loadRegs x) (mapStEvent φ ψ s) = .next (mapStEvent φ ψ t) := by
  cases h
  exact congrArg (Host.Outcome.next ∘ advance) (loadFirst_mapStEvent φ ψ _)

theorem exec_call_mapStEvent {nnn : Addr12} (h : exec (.call nnn) s = .next t) :
    exec (.call nnn) (mapStEvent φ ψ s) = .next (mapStEvent φ ψ t) := by
  obtain hs | hs := sp_lt_or_full s
  · cases (exec_call_of_lt nnn hs).symm.trans h
    exact exec_call_of_lt (s := mapStEvent φ ψ s) nnn hs
  · cases (exec_call_of_full nnn hs).symm.trans h
    exact exec_call_of_full (s := mapStEvent φ ψ s) nnn hs

theorem exec_ret_mapStEvent (h : exec .ret s = .next t) :
    exec .ret (mapStEvent φ ψ s) = .next (mapStEvent φ ψ t) := by
  by_cases hs : s.sp.val = 0
  · cases (exec_ret_of_zero hs).symm.trans h
    exact exec_ret_of_zero (s := mapStEvent φ ψ s) hs
  · cases (exec_ret_of_pos hs).symm.trans h
    exact exec_ret_of_pos (s := mapStEvent φ ψ s) hs

end

/-- Settles O51: every instruction but `LD ST,Vx` leaves the new value of `ST`, and that one leaves `V[x]`. -/
theorem soundTimerIsNeverRead : Obligations.SoundTimerIsNeverRead := by
  intro i s t b h
  cases i
  case ldStVx x =>
    cases h
    exact ⟨readV s x, rfl⟩
  case call nnn => exact ⟨b, exec_call_mapStEvent (fun _ => b) id h⟩
  case ret => exact ⟨b, exec_ret_mapStEvent (fun _ => b) id h⟩
  case storeRegs x => exact ⟨b, exec_storeRegs_mapStEvent (fun _ => b) id h⟩
  case loadRegs x => exact ⟨b, exec_loadRegs_mapStEvent (fun _ => b) id h⟩
  case ldK x =>
    obtain ⟨k, hk⟩ | hk := resolved_or_pending s
    · cases (exec_ldK_of_resolved x hk).symm.trans h
      exact ⟨b, exec_ldK_of_resolved x hk⟩
    · cases (exec_ldK_of_pending x hk).symm.trans h
      exact ⟨b, exec_ldK_of_pending x hk⟩
  all_goals
    cases h
    exact ⟨b, rfl⟩

/-- Settles O55: apart from the three, the instructions give the event through as it is. -/
theorem eventReadByThree : Obligations.EventReadByThree := by
  intro i s t e hskp hsknp hldK h
  cases i
  case skp x => exact absurd rfl (hskp x)
  case sknp x => exact absurd rfl (hsknp x)
  case ldK x => exact absurd rfl (hldK x)
  case call nnn => exact exec_call_mapStEvent id (fun _ => e) h
  case ret => exact exec_ret_mapStEvent id (fun _ => e) h
  case storeRegs x => exact exec_storeRegs_mapStEvent id (fun _ => e) h
  case loadRegs x => exact exec_loadRegs_mapStEvent id (fun _ => e) h
  all_goals
    cases h
    rfl

end Sys2Proof.Machine

/-!
The memory instructions (20_memory, 45_index_memory): the big-endian fetch, the exact effects of the two stores and of
the bulk load, and what the fetch after a store gives.
-/

namespace Sys2Proof.Machine

/-! ### The bytes of the fetched word -/

theorem joinBytes_toNat (hi lo : Byte) : (joinBytes hi lo).toNat = hi.toNat * 256 + lo.toNat :=
  toNat_append_add hi lo

@[simp] theorem highByte_joinBytes (hi lo : Byte) : highByte (joinBytes hi lo) = hi := by
  apply BitVec.eq_of_toNat_eq
  rw [highByte, BitVec.extractLsb'_toNat, joinBytes_toNat, Nat.shiftRight_eq_div_pow]
  omega

@[simp] theorem lowByte_joinBytes (hi lo : Byte) : lowByte (joinBytes hi lo) = lo := by
  apply BitVec.eq_of_toNat_eq
  rw [lowByte, BitVec.extractLsb'_toNat, joinBytes_toNat, Nat.shiftRight_zero]
  omega

/-! ### The decimal digits of a byte (45_index_memory R162) -/

theorem bcdHundreds_toNat (b : Byte) : (bcdHundreds b).toNat = b.toNat / 100 := by
  rw [bcdHundreds, BitVec.toNat_ofNat]
  omega

theorem bcdTens_toNat (b : Byte) : (bcdTens b).toNat = b.toNat / 10 % 10 := by
  rw [bcdTens, BitVec.toNat_ofNat]
  omega

theorem bcdOnes_toNat (b : Byte) : (bcdOnes b).toNat = b.toNat % 10 := by
  rw [bcdOnes, BitVec.toNat_ofNat]
  omega

/-! ### Bytes stored from `I` up -/

/-- Memory of `t` is that of `s` with the bytes of the list from `I` of `s` up, each address through the translator
(20_memory R40). -/
def StoredFromI (bytes : List Byte) (s t : State) : Prop :=
  (∀ (k : Nat) (h : k < bytes.length), ∀ a, physical a = physical (s.i + BitVec.ofNat 16 k) →
    readByte t a = bytes[k]) ∧
  MemKeptOutside s.i bytes.length s t

theorem StoredFromI.nil (s : State) : StoredFromI [] s s :=
  ⟨nofun, fun _ _ => rfl⟩

/-- One more byte, right after those already stored; its address is none of theirs (20_memory R47). -/
theorem StoredFromI.snoc {bytes : List Byte} {s t : State} (h : StoredFromI bytes s t)
    (hfit : bytes.length < 4096) (b : Byte) :
    StoredFromI (bytes ++ [b]) s (writeByte t (s.i + BitVec.ofNat 16 bytes.length) b) := by
  obtain ⟨hstored, hkept⟩ := h
  refine ⟨fun k hk a ha => ?_, fun a ha => ?_⟩
  · rw [List.length_append, List.length_singleton] at hk
    rw [readByte_writeByte]
    obtain hlt | rfl := Nat.lt_succ_iff_lt_or_eq.mp hk
    · have hne : physical a ≠ physical (s.i + BitVec.ofNat 16 bytes.length) := fun e =>
        hlt.ne (physical_dataAddr_inj s (by omega) hfit (ha.symm.trans e))
      rw [if_neg hne, hstored k hlt a ha, List.getElem_append_left hlt]
    · rw [if_pos ha, List.getElem_concat_length rfl]
  · rw [List.length_append, List.length_singleton] at ha
    rw [readByte_writeByte, if_neg (ha _ (by omega)), hkept a fun k hk => ha k (by omega)]

/-- The end of an instruction leaves memory as it is. -/
theorem StoredFromI.advance {bytes : List Byte} {s t : State} (h : StoredFromI bytes s t) :
    StoredFromI bytes s (advance t) := h

/-- The fetch of `t` reads the stored bytes where its two addresses are covered, memory of `s` elsewhere (R46, R52). -/
theorem StoredFromI.fetchSees {bytes : List Byte} {s t : State} (h : StoredFromI bytes s t)
    (hpc : t.pc = s.pc + 2) : FetchSees bytes s t := by
  obtain ⟨hstored, hkept⟩ := h
  have hhigh : highByte (fetchWord t) = readByte t (s.pc + 2) := by simp [fetchWord, hpc]
  have hlow : lowByte (fetchWord t) = readByte t (s.pc + 3) := by simp [fetchWord, hpc, BitVec.add_assoc]
  rw [FetchSees, hhigh, hlow]
  exact ⟨fun k hk e => hstored k hk _ e.symm, fun k hk e => hstored k hk _ e.symm,
    fun hout => hkept _ fun k hk => (hout k hk).symm, fun hout => hkept _ fun k hk => (hout k hk).symm⟩

/-! ### The two stores -/

/-- The three digits `LD B,Vx` stores, in the order of their addresses (R162). -/
def digitsOf (b : Byte) : List Byte := [bcdHundreds b, bcdTens b, bcdOnes b]

/-- The registers `LD [I],Vx` stores, in the order of their addresses (R163). -/
def registersUpTo (x : Nibble) (s : State) : List Byte :=
  (List.range (x.toNat + 1)).map fun k => readV s (BitVec.ofNat 4 k)

theorem length_registersUpTo (x : Nibble) (s : State) : (registersUpTo x s).length = x.toNat + 1 := by
  simp [registersUpTo]

theorem exec_ldB_stores (x : Nibble) (s : State) :
    ∃ t, exec (.ldB x) s = .next t ∧ StoredFromI (digitsOf (readV s x)) s t := by
  have hundreds := (StoredFromI.nil s).snoc (by simp) (bcdHundreds (readV s x))
  have tens := hundreds.snoc (by simp) (bcdTens (readV s x))
  have ones := tens.snoc (by simp) (bcdOnes (readV s x))
  exact ⟨_, rfl, ones.advance⟩

theorem exec_storeRegs_stores (x : Nibble) (s : State) :
    ∃ t, exec (.storeRegs x) s = .next t ∧ StoredFromI (registersUpTo x s) s t := by
  obtain ⟨hstored, hkept⟩ := readByte_storeFirst s (x.toNat + 1) (by omega)
  have hlen := length_registersUpTo x s
  refine ⟨_, rfl, StoredFromI.advance ⟨fun k hk a ha => ?_, fun a ha => hkept a fun k hk => ha k (by omega)⟩⟩
  rw [hstored k (by omega) a ha]
  simp [registersUpTo]

/-- What neither store changes. -/
theorem store_frame {i : Instr} {s t : State} (hi : ∃ x, i = .ldB x ∨ i = .storeRegs x) (h : exec i s = .next t) :
    t.pc = s.pc + 2 ∧ t.reply = .outcome .none ∧ VKept [] s t ∧ t.i = s.i ∧ StackKept s t ∧
      TimersKept s t ∧ ScreenKept s t ∧ HostKept s t := by
  obtain ⟨u, hu, hpc, hreply⟩ := exec_pc_reply i s
  cases hu.symm.trans h
  have hw := exec_writes h
  obtain ⟨x, rfl | rfl⟩ := hi
  all_goals
    rw [mergeWrites] at hw
    refine ⟨hpc, hreply, ?_⟩
    rw [hw]
    exact ⟨.of_eq rfl, rfl, .of_eq rfl rfl, ⟨rfl, rfl⟩, .of_eq rfl, rfl, rfl, rfl, rfl, rfl, rfl⟩

/-! ### The obligations -/

/-- Settles O13: the two bytes are read through the translator and joined. -/
theorem fetchIsBigEndian : Obligations.FetchIsBigEndian := by
  intro s
  have hlow : physical (s.pc + 1) = (s.pc.toNat + 1) % 4096 := physical_add s.pc 1
  rw [fetchWord, joinBytes_toNat, readByte, readByte, hlow, physical]

/-- Settles O15: both stores put their bytes from `I` up and end at `PC + 2`, where the fetch reads. -/
theorem storeIsSeenByTheNextFetch : Obligations.StoreIsSeenByTheNextFetch := by
  refine ⟨fun x s => ?_, fun x s => ?_⟩
  · obtain ⟨t, h, hstored⟩ := exec_ldB_stores x s
    obtain ⟨hpc, -⟩ := store_frame ⟨x, .inl rfl⟩ h
    exact ⟨t, h, hpc, hstored.fetchSees hpc⟩
  · obtain ⟨t, h, hstored⟩ := exec_storeRegs_stores x s
    obtain ⟨hpc, -⟩ := store_frame ⟨x, .inr rfl⟩ h
    exact ⟨t, h, hpc, hstored.fetchSees hpc⟩

/-- Settles O41: the stored list is the three digits, at offsets 0, 1 and 2. -/
theorem storeDecimalDigits : Obligations.StoreDecimalDigits := by
  intro x s
  obtain ⟨t, h, hstored, hkept⟩ := exec_ldB_stores x s
  have hundreds : readByte t s.i = bcdHundreds (readV s x) := hstored 0 (by decide : 0 < 3) s.i (by simp [physical])
  have tens : readByte t (s.i + 1) = bcdTens (readV s x) := hstored 1 (by decide : 1 < 3) _ rfl
  have ones : readByte t (s.i + 2) = bcdOnes (readV s x) := hstored 2 (by decide : 2 < 3) _ rfl
  exact ⟨t, h, by rw [hundreds, bcdHundreds_toNat], by rw [tens, bcdTens_toNat], by rw [ones, bcdOnes_toNat],
    hkept, store_frame ⟨x, .inl rfl⟩ h⟩

/-- Settles O42: byte `k` of the stored list is `V[k]`. -/
theorem bulkStore : Obligations.BulkStore := by
  intro x s
  obtain ⟨t, h, hstored, hkept⟩ := exec_storeRegs_stores x s
  refine ⟨t, h, fun k hk => ?_, length_registersUpTo x s ▸ hkept, store_frame ⟨x, .inr rfl⟩ h⟩
  have hlt : k.toNat < (registersUpTo x s).length := by
    rw [length_registersUpTo]
    omega
  rw [hstored k.toNat hlt _ rfl]
  simp [registersUpTo]

/-- Settles O43: the registers are those of `readV_loadFirst`, and by `exec_writes` no other machine state but `PC` is
written. -/
theorem bulkLoad : Obligations.BulkLoad := by
  intro x s
  obtain ⟨t, h, hpc, hreply⟩ := exec_pc_reply (.loadRegs x) s
  have hw := exec_writes h
  refine ⟨t, h, fun k => ?_, hpc, hreply, ?_⟩
  · cases h
    have hload := readV_loadFirst s (x.toNat + 1) (by omega) k
    simp only [Nat.lt_succ_iff] at hload
    exact hload
  · rw [hw]
    exact ⟨rfl, .of_eq rfl rfl, .of_eq rfl rfl, ⟨rfl, rfl⟩, .of_eq rfl, rfl, rfl, rfl, rfl, rfl, rfl⟩

end Sys2Proof.Machine

/-!
Decoding and encoding (30_encoding): the decoder accepts a word as an instruction exactly when the word's fields are
those of the instruction's row of the opcode map, which is where the encoder puts them; and the shifts, whose field `y`
is encoded and ignored.
-/

namespace Sys2Proof

open Laws.FieldsPlaced (At)

/-! ### The encoder -/

open Laws.FieldsPlaced in
/-- The encoder puts every field where the row of the instruction has it. -/
theorem at_encode (i : Instr) : At (encode i) i := by
  cases i
  exacts [cls, ret, jp _, call _, seImm _ _, sneImm _ _, seReg _ _, sneReg _ _, ldImm _ _, addImm _ _, ldReg _ _,
    orReg _ _, andReg _ _, xorReg _ _, addReg _ _, sub _ _, shr _ _, subn _ _, shl _ _, ldI _, jpV0 _, rnd _ _,
    drw _ _ _, skp _, sknp _, ldVxDt _, ldDtVx _, ldStVx _, addI _, ldF _, ldB _, storeRegs _, loadRegs _, ldK _]

/-- A word is its fields in format A (30_encoding R62). -/
theorem formatA_fields (w : Word) : opOf w ++ nnnOf w = w := by
  apply BitVec.eq_of_toNat_eq
  rw [toNat_formatA, opOf_toNat, nnnOf_toNat]
  omega

/-- A word is its fields in format XK. -/
theorem formatXK_fields (w : Word) : opOf w ++ xOf w ++ kkOf w = w := by
  apply BitVec.eq_of_toNat_eq
  rw [toNat_formatXK, opOf_toNat, xOf_toNat, kkOf_toNat]
  omega

/-- A word is its fields in format XYN. -/
theorem formatXYN_fields (w : Word) : opOf w ++ xOf w ++ yOf w ++ nOf w = w := by
  apply BitVec.eq_of_toNat_eq
  rw [toNat_formatXYN, opOf_toNat, xOf_toNat, yOf_toNat, nOf_toNat]
  omega

/-- The fields of an instruction's row leave no bit of the word open. -/
theorem encode_eq_of_at {w : Word} {i : Instr} (h : At w i) : encode i = w := by
  cases i
  case cls | ret => exact h.symm
  case jp | call | ldI | jpV0 =>
    obtain ⟨hop, rfl⟩ := h
    rw [encode, ← hop]
    exact formatA_fields w
  case seReg | sneReg | ldReg | orReg | andReg | xorReg | addReg | sub | shr | subn | shl | drw =>
    obtain ⟨hop, rfl, rfl, hn⟩ := h
    rw [encode, ← hop, ← hn]
    exact formatXYN_fields w
  all_goals
    obtain ⟨hop, rfl, hkk⟩ := h
    rw [encode, ← hop, ← hkk]
    exact formatXK_fields w

/-! ### The families of the decoder that look at more than the first nibble (30_encoding R65) -/

section
variable {w : Word}

theorem decodeWord_of_op0 (hop : opOf w = 0x0#4) : decodeWord w = decode0 w := by simp [decodeWord, hop]

theorem decodeWord_of_op8 (hop : opOf w = 0x8#4) : decodeWord w = decode8 (xOf w) (yOf w) (nOf w) := by
  simp [decodeWord, hop]

theorem decodeWord_of_opE (hop : opOf w = 0xE#4) : decodeWord w = decodeE (xOf w) (kkOf w) := by
  simp [decodeWord, hop]

theorem decodeWord_of_opF (hop : opOf w = 0xF#4) : decodeWord w = decodeF (xOf w) (kkOf w) := by
  simp [decodeWord, hop]

end

/-! ### The decoder accepts exactly the fields of a row -/

theorem decodeWord_of_at {w : Word} {i : Instr} (h : At w i) : decodeWord w = .ok i := by
  cases i
  case cls | ret =>
    cases h
    decide
  case jp | call | ldI | jpV0 =>
    obtain ⟨hop, rfl⟩ := h
    simp [decodeWord, hop]
  case seImm | sneImm | ldImm | addImm | rnd =>
    obtain ⟨hop, rfl, rfl⟩ := h
    simp [decodeWord, hop]
  case seReg | sneReg | drw =>
    obtain ⟨hop, rfl, rfl, hn⟩ := h
    simp [decodeWord, hop, hn]
  case ldReg | orReg | andReg | xorReg | addReg | sub | shr | subn | shl =>
    obtain ⟨hop, rfl, rfl, hn⟩ := h
    simp [decodeWord_of_op8 hop, decode8, hn]
  case skp | sknp =>
    obtain ⟨hop, rfl, hkk⟩ := h
    simp [decodeWord_of_opE hop, decodeE, hkk]
  all_goals
    obtain ⟨hop, rfl, hkk⟩ := h
    simp [decodeWord_of_opF hop, decodeF, hkk]

theorem at_of_decode0 {w : Word} {i : Instr} (h : decode0 w = .ok i) : At w i := by
  rw [decode0] at h
  split_ifs at h
  all_goals
    cases h
    assumption

theorem at_of_decode8 {w : Word} {i : Instr} (hop : opOf w = 0x8#4)
    (h : decode8 (xOf w) (yOf w) (nOf w) = .ok i) : At w i := by
  rw [decode8] at h
  split_ifs at h
  all_goals
    cases h
    exact ⟨hop, rfl, rfl, ‹_›⟩

theorem at_of_decodeE {w : Word} {i : Instr} (hop : opOf w = 0xE#4)
    (h : decodeE (xOf w) (kkOf w) = .ok i) : At w i := by
  rw [decodeE] at h
  split_ifs at h
  all_goals
    cases h
    exact ⟨hop, rfl, ‹_›⟩

theorem at_of_decodeF {w : Word} {i : Instr} (hop : opOf w = 0xF#4)
    (h : decodeF (xOf w) (kkOf w) = .ok i) : At w i := by
  rw [decodeF] at h
  split_ifs at h
  all_goals
    cases h
    exact ⟨hop, rfl, ‹_›⟩

/-- The 16 families, one for each first nibble (30_encoding R65). -/
theorem nibble_cases : ∀ op : Nibble,
    op = 0x0#4 ∨ op = 0x1#4 ∨ op = 0x2#4 ∨ op = 0x3#4 ∨ op = 0x4#4 ∨ op = 0x5#4 ∨ op = 0x6#4 ∨ op = 0x7#4 ∨
    op = 0x8#4 ∨ op = 0x9#4 ∨ op = 0xA#4 ∨ op = 0xB#4 ∨ op = 0xC#4 ∨ op = 0xD#4 ∨ op = 0xE#4 ∨ op = 0xF#4 := by
  decide

/-- A word that fits one row decodes to nothing but that row's instruction. -/
theorem at_of_decodeWord_of_at {w : Word} {i j : Instr} (hj : At w j) (h : decodeWord w = .ok i) : At w i := by
  cases (decodeWord_of_at hj).symm.trans h
  exact hj

theorem at_of_decodeWord {w : Word} {i : Instr} (h : decodeWord w = .ok i) : At w i := by
  obtain hop | hop | hop | hop | hop | hop | hop | hop | hop | hop | hop | hop | hop | hop | hop | hop :=
    nibble_cases (opOf w)
  · exact at_of_decode0 (decodeWord_of_op0 hop ▸ h)
  · exact at_of_decodeWord_of_at (j := .jp (nnnOf w)) ⟨hop, rfl⟩ h
  · exact at_of_decodeWord_of_at (j := .call (nnnOf w)) ⟨hop, rfl⟩ h
  · exact at_of_decodeWord_of_at (j := .seImm (xOf w) (kkOf w)) ⟨hop, rfl, rfl⟩ h
  · exact at_of_decodeWord_of_at (j := .sneImm (xOf w) (kkOf w)) ⟨hop, rfl, rfl⟩ h
  · have hn : nOf w = 0x0#4 := by
      by_contra hn
      simp [decodeWord, hop, hn] at h
    exact at_of_decodeWord_of_at (j := .seReg (xOf w) (yOf w)) ⟨hop, rfl, rfl, hn⟩ h
  · exact at_of_decodeWord_of_at (j := .ldImm (xOf w) (kkOf w)) ⟨hop, rfl, rfl⟩ h
  · exact at_of_decodeWord_of_at (j := .addImm (xOf w) (kkOf w)) ⟨hop, rfl, rfl⟩ h
  · exact at_of_decode8 hop (decodeWord_of_op8 hop ▸ h)
  · have hn : nOf w = 0x0#4 := by
      by_contra hn
      simp [decodeWord, hop, hn] at h
    exact at_of_decodeWord_of_at (j := .sneReg (xOf w) (yOf w)) ⟨hop, rfl, rfl, hn⟩ h
  · exact at_of_decodeWord_of_at (j := .ldI (nnnOf w)) ⟨hop, rfl⟩ h
  · exact at_of_decodeWord_of_at (j := .jpV0 (nnnOf w)) ⟨hop, rfl⟩ h
  · exact at_of_decodeWord_of_at (j := .rnd (xOf w) (kkOf w)) ⟨hop, rfl, rfl⟩ h
  · exact at_of_decodeWord_of_at (j := .drw (xOf w) (yOf w) (nOf w)) ⟨hop, rfl, rfl, rfl⟩ h
  · exact at_of_decodeE hop (decodeWord_of_opE hop ▸ h)
  · exact at_of_decodeF hop (decodeWord_of_opF hop ▸ h)

theorem decodeWord_encode (i : Instr) : decodeWord (encode i) = .ok i :=
  decodeWord_of_at (at_encode i)

/-! ### The illegal words of each family (30_encoding R67) -/

/-- A row of a family: its word is accepted, every other word is left to the rows below. -/
theorem row_error_iff {p : Prop} [Decidable p] (i : Instr) (rest : Except Reject Instr) :
    (∃ r, (if p then .ok i else rest) = .error r) ↔ ¬ p ∧ ∃ r, rest = .error r := by
  by_cases h : p <;> simp [h]

theorem decode0_error_iff {w : Word} (hop : opOf w = 0x0#4) :
    (∃ r, decode0 w = .error r) ↔ (nnnOf w).toNat ≠ 0x0E0 ∧ (nnnOf w).toNat ≠ 0x0EE := by
  have hlow : (nnnOf w).toNat = w.toNat := by
    have hzero : w.toNat / 4096 = 0 := by rw [← opOf_toNat, hop, BitVec.toNat_ofNat]
    rw [nnnOf_toNat]
    omega
  simp [decode0, row_error_iff, hlow, ← BitVec.toNat_inj]

theorem decode8_error_iff (x y n : Nibble) :
    (∃ r, decode8 x y n = .error r) ↔ n.toNat ∈ [0x8, 0x9, 0xA, 0xB, 0xC, 0xD, 0xF] := by
  obtain rfl | rfl | rfl | rfl | rfl | rfl | rfl | rfl | rfl | rfl | rfl | rfl | rfl | rfl | rfl | rfl :=
    nibble_cases n
  all_goals simp [decode8]

theorem decodeE_error_iff (x : Nibble) (kk : Byte) :
    (∃ r, decodeE x kk = .error r) ↔ kk.toNat ∉ [0x9E, 0xA1] := by
  simp [decodeE, row_error_iff, ← BitVec.toNat_inj]

theorem decodeF_error_iff (x : Nibble) (kk : Byte) :
    (∃ r, decodeF x kk = .error r) ↔ kk.toNat ∉ [0x07, 0x0A, 0x15, 0x18, 0x1E, 0x29, 0x33, 0x55, 0x65] := by
  simp [decodeF, row_error_iff, ← BitVec.toNat_inj]

/-! ### The obligations on the encoding -/

/-- Settles O1: the fields the encoder places are those the decoder accepts, and its two bytes
joined again are the word. -/
theorem decodeOfEncode : Obligations.DecodeOfEncode :=
  fun i rest => ⟨decodeWord_encode i, by simp [encodeBytes, decode, decodeWord_encode, Except.map]⟩

/-- Settles O2: the word has the fields of the instruction's row, and these leave no bit open. -/
theorem encodeOfDecode : Obligations.EncodeOfDecode :=
  fun _ _ h => encode_eq_of_at (at_of_decodeWord h)

/-- Settles O3, by the first nibble: the numbers of R67 are fields, and each family has its own illegal words. -/
theorem illegalWordsAreTheSixClasses : Obligations.IllegalWordsAreTheSixClasses := by
  intro w
  simp only [← opOf_toNat, ← nOf_toNat, ← kkOf_toNat, ← nnnOf_toNat]
  obtain hop | hop | hop | hop | hop | hop | hop | hop | hop | hop | hop | hop | hop | hop | hop | hop :=
    nibble_cases (opOf w)
  all_goals
    simp [decodeWord, hop, row_error_iff, decode0_error_iff, decode8_error_iff, decodeE_error_iff, decodeF_error_iff,
      ← BitVec.toNat_inj]

/-- Settles O4: eighteen words, each evaluated. -/
theorem specWordsDecode : Obligations.SpecWordsDecode := by
  unfold Obligations.SpecWordsDecode
  decide

end Sys2Proof

namespace Sys2Proof.Machine

/-! ### The shifts -/

theorem flagByte_toNat (f : Bool) : (flagByte f).toNat = f.toNat := by
  cases f <;> rfl

theorem lowBitFlag_toNat (b : Byte) : (lowBitFlag b).toNat = b.toNat % 2 := by
  rw [lowBitFlag, BitVec.getLsbD, Nat.toNat_testBit, Nat.pow_zero, Nat.div_one]

theorem highBitFlag_toNat (b : Byte) : (highBitFlag b).toNat = b.toNat / 128 := by
  rw [highBitFlag, BitVec.getLsbD, Nat.toNat_testBit]
  omega

/-- An instruction that writes one general register and then `VF`. -/
theorem onlyV_writeResultAndFlag (s : State) (x : Nibble) (b : Byte) (f : Bool) :
    OnlyV [x, 0xF#4] s (writeResultAndFlag s x b f) :=
  ⟨vKept_writeResultAndFlag s x b f, rfl, .of_eq rfl rfl, .of_eq rfl rfl, ⟨rfl, rfl⟩, .of_eq rfl,
    rfl, rfl, rfl, rfl, rfl, rfl⟩

/-- The end of the five flag-writing ALU instructions (41_immediate_and_alu R112, R123): the result stays unless `x`
is `VF`, the flag always. -/
theorem exec_writeResultAndFlag_spec {i : Instr} {s : State} {x : Nibble} {b : Byte} {f : Bool}
    (h : exec i s = .next (writeResultAndFlag s x b f)) :
    ∃ t, exec i s = .next t ∧ (x ≠ 0xF#4 → readV t x = b) ∧ readV t 0xF#4 = flagByte f ∧
      t.pc = s.pc + 2 ∧ t.reply = .outcome .none ∧ OnlyV [x, 0xF#4] s t :=
  ⟨_, h, fun hx => by simp [hx], by simp, rfl, rfl, onlyV_writeResultAndFlag s x b f⟩

/-- Settles O30: both end as every flag-writing instruction; what is left are the shifted values and the bits shifted
out. -/
theorem shiftByOne : Obligations.ShiftByOne := by
  refine ⟨fun x y s => ?_, fun x y s => ?_⟩
  · obtain ⟨t, h, hresult, hflag, hframe⟩ := exec_writeResultAndFlag_spec (i := .shr x y) (s := s) rfl
    refine ⟨t, h, fun hx => ?_, ?_, hframe⟩
    · rw [hresult hx, BitVec.toNat_ushiftRight, Nat.shiftRight_eq_div_pow]
    · rw [hflag, flagByte_toNat, lowBitFlag_toNat]
  · obtain ⟨t, h, hresult, hflag, hframe⟩ := exec_writeResultAndFlag_spec (i := .shl x y) (s := s) rfl
    refine ⟨t, h, fun hx => ?_, ?_, hframe⟩
    · rw [hresult hx, BitVec.toNat_shiftLeft, Nat.shiftLeft_eq, Nat.mul_comm, pow_one]
    · rw [hflag, flagByte_toNat, highBitFlag_toNat]

end Sys2Proof.Machine

namespace Sys2Proof.Machine

/-- What every jump does: `PC` takes the target whole, and the reply is all that is written besides. -/
theorem jump_spec (s : State) (target : Word) :
    (jump s target).pc = target ∧ (jump s target).reply = .outcome .none ∧ OnlyV [] s (jump s target) :=
  ⟨rfl, rfl, onlyV_leave s target .none⟩

/-- Settles O21: a jump to the address extended by zeros, which keeps its value. -/
theorem jumpAbsolute : Obligations.JumpAbsolute := by
  intro nnn s
  obtain ⟨hpc, hreply, hframe⟩ := jump_spec s (zextAddr nnn)
  exact ⟨jump s (zextAddr nnn), rfl, hpc ▸ zextAddr_toNat nnn, hreply, hframe⟩

end Sys2Proof.Machine

namespace Sys2Proof.Machine

/-! ### Immediate moves, copy and logic, sums and differences -/

/-- The end of the instructions that write one general register and no flag (41_immediate_and_alu R110 to R116): the
value stays, `VF` included when it is the destination. -/
theorem exec_advance_writeV_spec {i : Instr} {s : State} {x : Nibble} {b : Byte}
    (h : exec i s = .next (advance (writeV s x b))) :
    ∃ t, exec i s = .next t ∧ readV t x = b ∧ t.pc = s.pc + 2 ∧ t.reply = .outcome .none ∧ OnlyV [x] s t :=
  ⟨_, h, by simp, rfl, rfl, onlyV_leave_writeV s x b _ _⟩

theorem flagByte_decide (p : Prop) [Decidable p] : flagByte (decide p) = if p then 1 else 0 := by
  simp [flagByte]

/-- The end of both subtractions (41_immediate_and_alu R118, R120): the difference modulo 256, then 1 exactly when the
minuend `a` is strictly greater. -/
theorem exec_difference_spec {i : Instr} {s : State} {x : Nibble} {a b : Byte}
    (h : exec i s = .next (writeResultAndFlag s x (a - b) (greaterFlag a b))) :
    ∃ t, exec i s = .next t ∧ (x ≠ 0xF#4 → (readV t x).toNat = (a.toNat + 256 - b.toNat) % 256) ∧
      readV t 0xF#4 = (if a.toNat > b.toNat then 1 else 0) ∧
      t.pc = s.pc + 2 ∧ t.reply = .outcome .none ∧ OnlyV [x, 0xF#4] s t := by
  obtain ⟨t, ht, hresult, hflag, hframe⟩ := exec_writeResultAndFlag_spec h
  refine ⟨t, ht, fun hx => ?_, ?_, hframe⟩
  · rw [hresult hx, BitVec.toNat_sub]
    omega
  · rw [hflag, greaterFlag, flagByte_decide]

/-- Settles O25: one write of the byte. -/
theorem loadImmediate : Obligations.LoadImmediate :=
  fun _ _ _ => exec_advance_writeV_spec rfl

/-- Settles O26: one write of the sum, which the byte holds modulo 256. -/
theorem addImmediate : Obligations.AddImmediate := by
  intro x kk s
  obtain ⟨t, h, hresult, hframe⟩ := exec_advance_writeV_spec (i := .addImm x kk) (s := s) rfl
  exact ⟨t, h, by rw [hresult, BitVec.toNat_add], hframe⟩

/-- Settles O27: each is one write of a register; what is left are the bits of the three results. -/
theorem copyAndLogic : Obligations.CopyAndLogic := by
  refine ⟨fun _ _ _ => exec_advance_writeV_spec rfl, fun x y s => ?_, fun x y s => ?_, fun x y s => ?_⟩
  · obtain ⟨t, h, hresult, hframe⟩ := exec_advance_writeV_spec (i := .orReg x y) (s := s) rfl
    exact ⟨t, h, fun _ _ => by rw [hresult, BitVec.getLsbD_or], hframe⟩
  · obtain ⟨t, h, hresult, hframe⟩ := exec_advance_writeV_spec (i := .andReg x y) (s := s) rfl
    exact ⟨t, h, fun _ _ => by rw [hresult, BitVec.getLsbD_and], hframe⟩
  · obtain ⟨t, h, hresult, hframe⟩ := exec_advance_writeV_spec (i := .xorReg x y) (s := s) rfl
    exact ⟨t, h, fun _ _ => by rw [hresult, BitVec.getLsbD_xor], hframe⟩

/-- Settles O28: ends as every flag-writing instruction, with the sum and its carry. -/
theorem addWithCarry : Obligations.AddWithCarry := by
  intro x y s
  obtain ⟨t, h, hresult, hflag, hframe⟩ := exec_writeResultAndFlag_spec (i := .addReg x y) (s := s) rfl
  refine ⟨t, h, fun hx => ?_, ?_, hframe⟩
  · rw [hresult hx, BitVec.toNat_add]
  · rw [hflag, carryFlag, flagByte_decide]

/-- Settles O29: both end as a difference, with minuend and subtrahend exchanged. -/
theorem subtractBothWays : Obligations.SubtractBothWays :=
  ⟨fun _ _ _ => exec_difference_spec rfl, fun _ _ _ => exec_difference_spec rfl⟩

end Sys2Proof.Machine

namespace Sys2Proof.Machine

/-- The sum of `JP V0,nnn` never wraps: it is at most `0xFFF + 0xFF` (42_index_jump_random R131). -/
theorem zextAddr_add_zextByte_toNat (nnn : Addr12) (b : Byte) :
    (zextAddr nnn + zextByte b).toNat = nnn.toNat + b.toNat := by
  rw [zextAddr_add_zextByte, BitVec.toNat_ofNat, Nat.mod_eq_of_lt (by omega)]

/-- Settles O32: a jump to the sum, which fits in 16 bits. -/
theorem jumpWithOffset : Obligations.JumpWithOffset := by
  intro nnn s
  obtain ⟨hpc, hreply, hframe⟩ := jump_spec s (zextAddr nnn + zextByte (readV s 0x0#4))
  exact ⟨_, rfl, hpc ▸ zextAddr_add_zextByte_toNat nnn _, hreply, hframe⟩

end Sys2Proof.Machine

/-!
`DRW` (43_draw): where each sprite bit lands, what one draw does to the screen and to `VF`, and two draws in a row.
-/

namespace Sys2Proof.Machine

/-! ### Where the sprite bits land (43_draw R141) -/

/-- The bit of the sprite at `I` in row `row` and column `col`. -/
def spriteBitAt (s : State) (row col : Nat) : Bool := spriteBit (readByte s (dataAddr s row)) col

/-- The sprite of `DRW Vx,Vy,n` has a bit in row `row` and column `col`, and it lands on the pixel at `(r, c)`. -/
def LandsOn (x y n : Nibble) (s : State) (row col : Nat) (r : Fin 32) (c : Fin 64) : Prop :=
  row < n.toNat ∧ col < 8 ∧ r.val = ((readV s y).toNat + row) % 32 ∧ c.val = ((readV s x).toNat + col) % 64

section
variable {x y n : Nibble} {s t : State} {row col row' col' : Nat} {r : Fin 32} {c : Fin 64}

theorem landsOn_iff :
    LandsOn x y n s row col r c ↔
      row < n.toNat ∧ col < 8 ∧ r = spriteRow (readV s y) row ∧ c = spriteCol (readV s x) col := by
  simp only [LandsOn, Fin.ext_iff, spriteRow, spriteCol]

theorem landsOn_self (hrow : row < n.toNat) (hcol : col < 8) :
    LandsOn x y n s row col (spriteRow (readV s y) row) (spriteCol (readV s x) col) :=
  ⟨hrow, hcol, rfl, rfl⟩

theorem landsOn_congr (hx : readV t x = readV s x) (hy : readV t y = readV s y) :
    LandsOn x y n t row col r c ↔ LandsOn x y n s row col r c := by
  rw [LandsOn, LandsOn, hx, hy]

theorem spriteBitAt_congr (hi : t.i = s.i) (hmem : MemKept s t) (row col : Nat) :
    spriteBitAt t row col = spriteBitAt s row col := by
  rw [spriteBitAt, spriteBitAt, dataAddr, dataAddr, hi, hmem]

/-- No two sprite bits land on one pixel: a sprite has at most 15 rows and 8 columns. -/
theorem LandsOn.unique (h : LandsOn x y n s row col r c) (h' : LandsOn x y n s row' col' r c) :
    row = row' ∧ col = col' := by
  obtain ⟨hrow, hcol, hr, hc⟩ := landsOn_iff.mp h
  obtain ⟨hrow', hcol', hr', hc'⟩ := landsOn_iff.mp h'
  exact ⟨spriteRow_inj (by omega) (by omega) (hr.symm.trans hr'), spriteCol_inj hcol hcol' (hc.symm.trans hc')⟩

/-! ### One draw -/

theorem blitSprite_drw_spec (x y n : Nibble) (s : State) :
    let drawn := blitSprite s (readV s x) (readV s y) n.toNat
    (∀ row col r c, LandsOn x y n s row col r c →
      pixel drawn.1 r c = (pixel s.fb r c ^^ spriteBitAt s row col)) ∧
    (∀ r c, (∀ row col, ¬ LandsOn x y n s row col r c) → pixel drawn.1 r c = pixel s.fb r c) ∧
    (drawn.2 = true ↔ ∃ row col r c, LandsOn x y n s row col r c ∧
      spriteBitAt s row col = true ∧ pixel s.fb r c = true) := by
  obtain ⟨hon, hoff, hhit⟩ := blitSprite_spec s (readV s x) (readV s y) n.toNat (by omega)
  simp only [landsOn_iff]
  refine ⟨?_, fun r c h => hoff r c fun row col hrow hcol ⟨hr, hc⟩ => h row col ⟨hrow, hcol, hr, hc⟩, ?_⟩
  · rintro row col _ _ ⟨hrow, hcol, rfl, rfl⟩
    exact hon row col hrow hcol
  · rw [hhit]
    constructor
    · rintro ⟨row, col, hrow, hcol, h⟩
      exact ⟨row, col, _, _, ⟨hrow, hcol, rfl, rfl⟩, h⟩
    · rintro ⟨row, col, _, _, ⟨hrow, hcol, rfl, rfl⟩, h⟩
      exact ⟨row, col, hrow, hcol, h⟩

/-- A sprite bit makes its pixel `old ^ bit` (43_draw R142). -/
theorem drw_pixel_of_landsOn (h : exec (.drw x y n) s = .next t) (hl : LandsOn x y n s row col r c) :
    pixel t.fb r c = (pixel s.fb r c ^^ spriteBitAt s row col) := by
  obtain ⟨hon, -⟩ := blitSprite_drw_spec x y n s
  cases h
  exact hon row col r c hl

/-- A pixel on which no sprite bit lands is unchanged. -/
theorem drw_pixel_of_not_landsOn (h : exec (.drw x y n) s = .next t)
    (hl : ∀ row col, ¬ LandsOn x y n s row col r c) : pixel t.fb r c = pixel s.fb r c := by
  obtain ⟨-, hoff, -⟩ := blitSprite_drw_spec x y n s
  cases h
  exact hoff r c hl

theorem flagByte_eq_one_iff (f : Bool) : flagByte f = 1 ↔ f = true := by
  cases f <;> decide

/-- `VF` is 1 exactly when a 1 bit landed on a pixel that was lit before (43_draw R142, R143). -/
theorem drw_flag_eq_one_iff (h : exec (.drw x y n) s = .next t) :
    readV t 0xF#4 = 1 ↔ ∃ row col r c, LandsOn x y n s row col r c ∧
      spriteBitAt s row col = true ∧ pixel s.fb r c = true := by
  obtain ⟨-, -, hhit⟩ := blitSprite_drw_spec x y n s
  cases h
  rw [← hhit, ← flagByte_eq_one_iff]
  simp

end

/-! ### The obligations -/

/-- Settles O36: the screen and the flag are the only writes, and the instruction ends with a redraw. -/
theorem drawAlwaysRedraws : Obligations.DrawAlwaysRedraws :=
  fun _ _ _ s => ⟨_, rfl, rfl, rfl, vKept_writeV (writeFb s _) 0xF#4 _, rfl, .of_eq rfl rfl, .of_eq rfl rfl,
    ⟨rfl, rfl⟩, rfl, rfl, rfl, rfl, rfl, rfl⟩

/-- Settles O34: one draw on the pixels where a bit lands and on the others. -/
theorem drawFlipsTheSpritePixels : Obligations.DrawFlipsTheSpritePixels := by
  intro x y n s
  obtain ⟨t, h, -⟩ := drawAlwaysRedraws x y n s
  refine ⟨t, h, fun r c row col hrow hcol hr hc => drw_pixel_of_landsOn h ⟨hrow, hcol, hr, hc⟩,
    fun row col row' col' hrow hcol hrow' hcol' hr hc => (landsOn_self hrow hcol).unique ⟨hrow', hcol', hr, hc⟩,
    fun r c hout => drw_pixel_of_not_landsOn h fun row col ⟨hrow, hcol, hrc⟩ => hout row col hrow hcol hrc⟩

/-- Settles O35: `VF` is written as a flag, last, with the collision of the whole sprite. -/
theorem drawSetsTheCollisionFlag : Obligations.DrawSetsTheCollisionFlag := by
  intro x y n s
  obtain ⟨t, h, -⟩ := drawAlwaysRedraws x y n s
  have hbyte := flagIsZeroOrOne x y n s t (.drw x y n) (by simp) h
  refine ⟨t, h, fun r c row col hrow hcol hr hc => drw_pixel_of_landsOn h ⟨hrow, hcol, hr, hc⟩, hbyte.symm, ?_⟩
  simpa only [LandsOn, spriteBitAt, spriteBit, dataAddr, and_assoc] using drw_flag_eq_one_iff h

/-- Settles O37: the first draw keeps the coordinates and the sprite, so each bit meets its own pixel twice. -/
theorem drawTwiceRestores : Obligations.DrawTwiceRestores := by
  intro x y n s hx hy
  obtain ⟨t, ht, -, -, hv, hi, hmem, -⟩ := drawAlwaysRedraws x y n s
  obtain ⟨u, hu, -⟩ := drawAlwaysRedraws x y n t
  have hlands : ∀ row col r c, LandsOn x y n t row col r c ↔ LandsOn x y n s row col r c :=
    fun _ _ _ _ => landsOn_congr (hv x (by simpa using hx)) (hv y (by simpa using hy))
  have hbit := spriteBitAt_congr hi hmem
  refine ⟨t, u, ht, hu, fun r c => ?_, fun hunlit => ?_⟩
  · by_cases hl : ∃ row col, LandsOn x y n s row col r c
    · obtain ⟨row, col, hl⟩ := hl
      rw [drw_pixel_of_landsOn hu ((hlands ..).mpr hl), drw_pixel_of_landsOn ht hl, hbit, Bool.xor_assoc,
        Bool.xor_self, Bool.xor_false]
    · simp only [not_exists] at hl
      rw [drw_pixel_of_not_landsOn hu fun row col h => hl row col ((hlands ..).mp h),
        drw_pixel_of_not_landsOn ht hl]
  · have hlit : ∀ row col r c, LandsOn x y n s row col r c → pixel t.fb r c = spriteBitAt s row col := by
      rintro row col r c ⟨hrow, hcol, hr, hc⟩
      rw [drw_pixel_of_landsOn ht ⟨hrow, hcol, hr, hc⟩, hunlit row col r c hrow hcol hr hc, Bool.false_xor]
    rw [drw_flag_eq_one_iff hu]
    constructor
    · rintro ⟨row, col, r, c, ⟨hrow, hcol, -⟩, hone, -⟩
      exact ⟨row, col, hrow, hcol, (hbit row col).symm.trans hone⟩
    · rintro ⟨row, col, hrow, hcol, hone⟩
      have hl := landsOn_self (x := x) (y := y) (s := s) hrow hcol
      exact ⟨row, col, _, _, (hlands ..).mpr hl, (hbit row col).trans hone, (hlit _ _ _ _ hl).trans hone⟩

end Sys2Proof.Machine

namespace Sys2Proof.Machine

/-- Settles O44: a register loaded is the byte at its address, which is still the one the bulk store put there. -/
theorem storeThenLoadRestores : Obligations.StoreThenLoadRestores := by
  intro x s
  obtain ⟨t, ht, hstored, -, -, -, -, hti, -⟩ := bulkStore x s
  refine ⟨t, ht, fun u hui hbytes => ?_⟩
  obtain ⟨v, hv, hloaded, -, -, hvi, -⟩ := bulkLoad x u
  refine ⟨v, hv, hvi.trans (hui.trans hti), fun k hk => ?_⟩
  calc readV v k
      = readByte u (u.i + BitVec.ofNat 16 k.toNat) := by rw [hloaded k, if_pos hk]
    _ = readByte t (t.i + BitVec.ofNat 16 k.toNat) := by rw [hui, hbytes k hk]
    _ = readV s k := by rw [hti, hstored k hk]

end Sys2Proof.Machine

namespace Sys2Proof.Machine

theorem zextKey_toNat (k : Nibble) : (zextKey k).toNat = k.toNat := by
  simp only [zextKey, BitVec.truncate_eq_setWidth, BitVec.toNat_setWidth]
  omega

/-- Settles O39: a resolved wait is one write of `V[x]`, of the key widened to a byte. -/
theorem awaitKeyResolves : Obligations.AwaitKeyResolves := by
  intro x k s h
  obtain ⟨t, hexec, hx, hframe⟩ := exec_advance_writeV_spec (exec_ldK_of_resolved x h)
  exact ⟨t, hexec, by rw [hx, zextKey_toNat], hframe⟩

/-- Settles O40: a pending wait leaves the instruction at its own `PC`. -/
theorem awaitKeyWaits : Obligations.AwaitKeyWaits :=
  fun x s h => ⟨_, exec_ldK_of_pending x h, rfl, rfl, onlyV_leave s s.pc .awaitKey⟩

end Sys2Proof.Machine

/-!
The faults and the timers (60_exceptions): which fetched words take a fault and why, what is left to the host after
one, and what a row of ticks does.
-/

namespace Sys2Proof.Machine

/-! ### The transition of a tick and the stop after a fault -/

/-- A tick of a machine without a fault counts both timers down (60_exceptions R215). -/
theorem step_of_tick {s : State} (h : nextCall s = .tick) (hf : s.fault = none) :
    step s = .next (tickTimers (afterCall s)) := by
  simp [step, h, hf]

/-- After a fault neither `step` nor `tick` exists (60_exceptions R205). -/
theorem step_of_fault {s : State} {f : FaultRecord} (hf : s.fault = some f)
    (h : ∀ image, nextCall s ≠ .reset image) : step s = .fault (.halted f) := by
  cases hcall : nextCall s with
  | reset image => exact absurd hcall (h image)
  | tick => simp [step, hcall, hf]
  | step e => simp [step, hcall, hf]

/-! ### The causes of a fault -/

/-- `s` is about to take the fault `f`: a word that is no instruction, a `CALL` without room, a `RET` without a saved
address (60_exceptions R201, R202). -/
def FaultCause (s : State) (f : FaultRecord) : Prop :=
  ((∀ i, decodeWord (fetchWord s) ≠ .ok i) ∧ f = .decodeFailure (fetchWord s) s.pc) ∨
  ((∃ nnn, decodeWord (fetchWord s) = .ok (.call nnn)) ∧ s.sp.val = 16 ∧ f = .stackOverflow s.pc) ∨
  (decodeWord (fetchWord s) = .ok .ret ∧ s.sp.val = 0 ∧ f = .stackUnderflow s.pc)

/-- Only the two stack instructions take a fault, each at its own bound of `SP`. -/
theorem exec_fault_cases {i : Instr} {s t : State} {f : FaultRecord} (hs : s.fault = none)
    (h : exec i s = .next t) (ht : t.fault = some f) :
    ((∃ nnn, i = .call nnn) ∧ s.sp.val = 16 ∧ f = .stackOverflow s.pc) ∨
    (i = .ret ∧ s.sp.val = 0 ∧ f = .stackUnderflow s.pc) := by
  cases i
  case call nnn =>
    obtain hsp | hsp := sp_lt_or_full s
    · cases (exec_call_of_lt nnn hsp).symm.trans h
      cases hs.symm.trans ht
    · cases (exec_call_of_full nnn hsp).symm.trans h
      cases ht
      exact .inl ⟨⟨nnn, rfl⟩, hsp, rfl⟩
  case ret =>
    by_cases hsp : s.sp.val = 0
    · cases (exec_ret_of_zero hsp).symm.trans h
      cases ht
      exact .inr ⟨rfl, hsp, rfl⟩
    · cases (exec_ret_of_pos hsp).symm.trans h
      cases hs.symm.trans ht
  all_goals
    have hkept := exec_fault h nofun nofun
    cases (hkept.trans hs).symm.trans ht

theorem runInstr_of_illegal {s : State} (h : ∀ i, decodeWord (fetchWord s) ≠ .ok i) :
    runInstr s = raise (.decodeFailure (fetchWord s) s.pc) s := by
  cases hd : decodeWord (fetchWord s) with
  | ok i => exact absurd hd (h i)
  | error r => simp [runInstr, hd]

/-- A fetched word that leaves `FAULT` set had a cause. -/
theorem faultCause_of_runInstr {s t : State} {f : FaultRecord} (hs : s.fault = none)
    (h : runInstr s = .next t) (ht : t.fault = some f) : FaultCause s f := by
  by_cases hlegal : ∃ i, decodeWord (fetchWord s) = .ok i
  · obtain ⟨i, hi⟩ := hlegal
    rw [runInstr_of_decodeWord hi] at h
    obtain ⟨⟨nnn, rfl⟩, hsp, hf⟩ | ⟨rfl, hsp, hf⟩ := exec_fault_cases hs h ht
    · exact .inr (.inl ⟨⟨nnn, hi⟩, hsp, hf⟩)
    · exact .inr (.inr ⟨hi, hsp, hf⟩)
  · have hillegal := not_exists.mp hlegal
    cases (runInstr_of_illegal hillegal).symm.trans h
    cases ht
    exact .inl ⟨hillegal, rfl⟩

/-- A fetched word that leaves `FAULT` set did so by taking the fault (60_exceptions R204). -/
theorem raise_of_runInstr {s t : State} {f : FaultRecord} (hs : s.fault = none)
    (h : runInstr s = .next t) (ht : t.fault = some f) : raise f s = .next t := by
  obtain ⟨g, hg⟩ | ⟨hkept, -⟩ := runInstr_ends h
  · cases hg
    cases ht
    rfl
  · cases (hkept.trans hs).symm.trans ht

/-! ### The state in which a `step` call runs its word -/

theorem fetchWord_beginStep_afterCall (e : Event) (s : State) :
    fetchWord (beginStep e (afterCall s)) = fetchWord s :=
  fetchWord_congr (by simp) (by simp) (by simp)

theorem faultCause_beginStep_afterCall (e : Event) (s : State) (f : FaultRecord) :
    FaultCause (beginStep e (afterCall s)) f ↔ FaultCause s f := by
  simp [FaultCause, fetchWord_beginStep_afterCall]

/-- Taking the call and its event changes no machine state. -/
theorem onlyFault_of_beginStep_afterCall {e : Event} {s t : State}
    (h : OnlyFault (beginStep e (afterCall s)) t) : OnlyFault s t := by
  rwa [beginStep_afterCall] at h

/-! ### A row of ticks -/

/-- A timer counts down by one and stops at 0 (60_exceptions R215). -/
theorem countDown_toNat (b : Byte) : (countDown b).toNat = b.toNat - 1 := by
  by_cases h : b = 0x00#8
  · simp [countDown, h]
  · rw [countDown, if_neg h]
    bv_omega

/-- A run goes on from the state its first step answers. -/
theorem run_succ_of_step {M : Host.Core} {s t : M.State} (h : M.step s = .next t) (n : Nat) :
    M.run (n + 1) s = M.run n t := by
  simp [Host.Core.run, h]

/-! ### The obligations -/

/-- Settles O11: a reset and a tick set no `FAULT`, and an instruction does by one of the three causes. -/
theorem onlyThreeFaults : Obligations.OnlyThreeFaults := by
  intro s t f hs h ht
  obtain ⟨_, _, _, rfl⟩ | ⟨_, _, rfl⟩ | ⟨e, hcall, _, hrun⟩ := step_cases h
  · cases ht
  · simp [hs] at ht
  · have hbegin : (beginStep e (afterCall s)).fault = none := by simpa using hs
    exact ⟨⟨e, hcall⟩,
      onlyFault_of_beginStep_afterCall (onlyFault_of_raise (raise_of_runInstr hbegin hrun ht)),
      (faultCause_beginStep_afterCall e s f).mp (faultCause_of_runInstr hbegin hrun ht)⟩

/-- Settles O12: `step` and `tick` calls stop as halted, and a reset makes `FAULT` anew. -/
theorem onlyResetLeavesAFault : Obligations.OnlyResetLeavesAFault := by
  intro s f hf
  refine ⟨fun e hcall => step_of_fault hf (by simp [hcall]), fun hcall => step_of_fault hf (by simp [hcall]),
    fun t h => ?_⟩
  obtain ⟨image, hcall, _, rfl⟩ | ⟨_, hnone, _⟩ | ⟨_, _, hnone, _⟩ := step_cases h
  · exact ⟨⟨image, hcall⟩, rfl⟩
  · cases hf.symm.trans hnone
  · cases hf.symm.trans hnone

/-- Settles O17, by induction on the number of ticks: each takes the first listed call and counts down once. -/
theorem ticksSaturateAtZero : Obligations.TicksSaturateAtZero := by
  intro n
  induction n with
  | zero => exact fun s later _ hcalls => ⟨s, rfl, rfl, rfl, rfl, hcalls⟩
  | succ n ih =>
    intro s later hf hcalls
    have hlist : s.calls = .tick :: (List.replicate n HostCall.tick ++ later) := hcalls
    have hstep := step_of_tick (nextCall_of_cons s hlist) hf
    obtain ⟨t, hrun, hdt, hst, hpc, hlater⟩ :=
      ih (tickTimers (afterCall s)) later (by simpa using hf) (by simp [hlist])
    simp only [tickTimers_dt, tickTimers_st, tickTimers_pc, afterCall_dt, afterCall_st, afterCall_pc,
      countDown_toNat] at hdt hst hpc
    exact ⟨t, (run_succ_of_step (M := core) hstep n).trans hrun, by omega, by omega, hpc, hlater⟩

/-- Settles O9: an illegal word takes the fault, and by `OnlyThreeFaults` nothing else records a `DecodeFailure`. -/
theorem illegalWordFaults : Obligations.IllegalWordFaults := by
  refine ⟨fun s e hcall hs hillegal => ?_, fun s t w p hs h ht => ?_⟩
  · rw [← fetchWord_beginStep_afterCall e s] at hillegal
    obtain ⟨t, hraise, hfault, hreply, honly, hreset⟩ :=
      raise_spec (.decodeFailure (fetchWord s) s.pc) (beginStep e (afterCall s))
    refine ⟨t, ?_, hfault, hreply, onlyFault_of_beginStep_afterCall honly, hreset⟩
    rw [step_of_step hcall hs, runInstr_of_illegal hillegal, ← hraise, fetchWord_beginStep_afterCall]
    simp
  · obtain ⟨hcall, -, ⟨hillegal, hf⟩ | ⟨-, -, hf⟩ | ⟨-, -, hf⟩⟩ := onlyThreeFaults s t _ hs h ht
    · cases hf
      exact ⟨hcall, rfl, rfl, hillegal⟩
    · cases hf
    · cases hf

/-- Settles O16: the tick counts both timers down, and taking the call moves no machine state. -/
theorem tickDecrementsTimers : Obligations.TickDecrementsTimers := by
  intro s hcall hs
  refine ⟨_, step_of_tick hcall hs, ?_, ?_, rfl, .of_eq ?_, ?_, ?_, .of_eq ?_ ?_, .of_eq ?_ ?_, .of_eq ?_,
    ?_, ?_, ?_, ?_⟩
  all_goals simp [countDown_toNat, hs]

end Sys2Proof.Machine

/-!
The state at rest (70_reset_and_hazards R246): the jump to itself leaves `PC` where it is, and being at rest depends on
`FAULT`, `PC` and memory only.
-/

namespace Sys2Proof.Machine

/-- The word at `PC` depends on `PC` and the bytes of memory only (20_memory R43). -/
theorem fetchWord_of_memKept {s t : State} (hpc : t.pc = s.pc) (hmem : MemKept s t) : fetchWord t = fetchWord s := by
  simp only [fetchWord, hpc, hmem s.pc, hmem (s.pc + 1)]

/-- A state that keeps the machine state of one at rest, and has no fault, is at rest. -/
theorem AtRest.of_onlyFault {s t : State} (hs : AtRest s) (h : OnlyFault s t) (hf : t.fault = none) : AtRest t := by
  obtain ⟨-, hbound, nnn, hdecode, hself⟩ := hs
  obtain ⟨-, -, hpc, hmem, -⟩ := h
  exact ⟨hf, hpc ▸ hbound, nnn, fetchWord_of_memKept hpc hmem ▸ hdecode, hpc ▸ hself⟩

/-- An instruction that writes no register and comes back to its own `PC` changes no machine state. -/
theorem OnlyV.onlyFault {s t : State} (h : OnlyV [] s t) (hpc : t.pc = s.pc) : OnlyFault s t := by
  obtain ⟨hv, hi, hmem, hstack, htimers, hscreen, -⟩ := h
  exact ⟨hv, hi, hpc, hmem, hstack, htimers, hscreen⟩

/-- Settles O57: the step is the jump of `JumpAbsolute` with `PC` itself as its target. -/
theorem atRestStaysAtRest : Obligations.AtRestStaysAtRest := by
  intro s e hrest hcall
  have ⟨hfault, hbound, nnn, hdecode, hself⟩ := hrest
  obtain ⟨t, hexec, htarget, hreply, hframe⟩ := jumpAbsolute nnn (beginStep e (afterCall s))
  have hstep : step s = .next t := by
    rw [step_of_step hcall hfault, runInstr_of_decodeWord ((fetchWord_beginStep_afterCall e s).symm ▸ hdecode), hexec]
  have hpc : t.pc = (beginStep e (afterCall s)).pc := by
    apply BitVec.eq_of_toNat_eq
    calc t.pc.toNat
        = s.pc.toNat % 4096 := htarget.trans hself
      _ = s.pc.toNat := Nat.mod_eq_of_lt hbound
      _ = (beginStep e (afterCall s)).pc.toNat := by simp
  have honly : OnlyFault s t := onlyFault_of_beginStep_afterCall (hframe.onlyFault hpc)
  obtain ⟨-, -, -, -, -, -, hkept, -⟩ := hframe
  have hnone : t.fault = none := hkept.trans (by simpa using hfault)
  exact ⟨t, hstep, hreply, honly, hnone, hrest.of_onlyFault honly hnone⟩

end Sys2Proof.Machine
